-- ==== Sys2Proof/Config.lean ====
section
/-! DEFINITION. Config: the four parameters of the engine (00_scope.md R5 to R9) and the values this hardware takes. -/

namespace Sys2Proof

/-- What the ALU does with an exact result outside the cell range (00_scope.md R8). -/
inductive Overflow where
  /-- `OVERFLOW = FAULT`: raise `ArithmeticOverflow`. -/
  | fault
  /-- `OVERFLOW = WRAP`: keep the low `XLEN` bits, two's complement. -/
  | wrap
deriving DecidableEq, Repr

/-- "The parameters of the engine are exactly `XLEN`, `ADDR_LIMIT`, `OVERFLOW` and `REL_EN`" (R5). -/
structure Config where
  /-- `XLEN`, the width of a cell in bits (R6). -/
  xlen : Nat
  /-- `ADDR_LIMIT`, the number of addressable cells (R7); status OPEN. -/
  addrLimit : Nat
  /-- `OVERFLOW` (R8). -/
  overflow : Overflow
  /-- `REL_EN`: whether relative addressing and opcode 9 exist (R9). -/
  relEn : Bool
deriving DecidableEq, Repr

/-- The parameter values this hardware takes by default (R6, R7, R8, R9). -/
def Config.hardware : Config where
  xlen := 64
  addrLimit := 2 ^ 63
  overflow := .fault
  relEn := true

/-- The legal parameter settings: `XLEN` is 32 (the earlier variants' width) or at least 64 (R6), and
`1 <= ADDR_LIMIT <= 2^(XLEN-1)` (R7). -/
abbrev Config.wf (c : Config) : Prop :=
  (c.xlen = 32 ∨ 64 ≤ c.xlen) ∧ 1 ≤ c.addrLimit ∧ c.addrLimit ≤ 2 ^ (c.xlen - 1)

end Sys2Proof
end

