-- ==== Sys2Proof/Word.lean ====
section
/-! DEFINITION. Word: the range of a cell.  Spec: 00_scope.md R6, 20_memory.md R31 and R39.

A cell is an `Int`: "A model holds a cell as an integer and never as bytes" (R39), and "no rule depends on the
representation of a cell, only on its range" (R6).  That every stored cell lies in the range is part of the machine's
invariant (R29 (c), Sys2Proof/Safety.lean).  An address is a cell index, a `Nat` once it is known to be legal (R32). -/

namespace Sys2Proof

/-- `MIN = -2^(XLEN-1)`, the least cell (R6). -/
def cellMin (xlen : Nat) : Int := -((2 ^ (xlen - 1) : Nat) : Int)

/-- `MAX = 2^(XLEN-1) - 1`, the greatest cell (R6). -/
def cellMax (xlen : Nat) : Int := ((2 ^ (xlen - 1) : Nat) : Int) - 1

end Sys2Proof
end

