-- ==== Sys2Proof/Machine/State.lean ====
section
/-! DEFINITION. State: everything the spec gives the machine, as plain data, and the state right after reset.
Spec: 10_state.md R13 to R30, 41_io.md R82 and R84, 60_exceptions.md R110. -/

namespace Sys2Proof.Machine

/-- `run`, the run state (R18). -/
inductive RunState where
  /-- RUNNING: the engine executes steps. -/
  | running
  /-- HALTED: opcode 99 was executed, "success". -/
  | halted
  /-- FAILED: a fault ended the run. -/
  | failed
deriving DecidableEq, Repr

/-- The eight fault kinds of 60_exceptions.md R110, in the order of their codes 1 to 8.  The `info` of `raise K(info)`
is a diagnostic that no rule reads and is not recorded (R124). -/
inductive ErrKind where
  | invalidOpCode
  | invalidParameterMode
  | missingInput
  | ioTransportFailure
  | ioParseFailure
  | negativeAddress
  | addressOutOfRange
  | arithmeticOverflow
deriving DecidableEq, Repr

/-- One answer of the input port (41_io.md R82). -/
inductive InAnswer where
  /-- `Value(v)`: a value is available. -/
  | value (v : Int)
  /-- `Exhausted`: no further values are available. -/
  | exhausted
  /-- `TransportError`: an underlying read failed. -/
  | transportError
  /-- `ParseError`: an input line could not be parsed as an integer. -/
  | parseError
deriving DecidableEq, Repr

/-- One answer of the output port (41_io.md R84). -/
inductive OutAnswer where
  /-- `Accepted`: the cell is in the output record. -/
  | accepted
  /-- `TransportError`: the sink rejected the write.  Whether the cell reached the record all the same "is the
  transport's business and is unspecified" (R84, U7): `recorded` is that bit, a FREE VALUE the environment carries
  (log entry 9). -/
  | transportError (recorded : Bool)
deriving DecidableEq, Repr

/-- The tape (R21): `mem` and `mem_len`.  `cells` lists the cells that are not 0, by strictly rising address; an
address it does not list reads 0 (R21, R34).  The canonical form is `Memory.wf` (Machine/Memory.lean). -/
structure Memory where
  /-- `mem`: the non-zero cells. -/
  cells : List (Nat × Int)
  /-- `mem_len`: the current length of the tape. -/
  len : Nat
deriving DecidableEq, Repr

/-- The state of the machine and of the environment behind its two ports. -/
structure State where
  /-- The four parameters (00_scope.md R5), constant over a run: the model's own field, so that a step is a function of
  the state alone (log entry 1). -/
  cfg : Config
  /-- `ip`, the instruction pointer (R14, R16). -/
  ip : Nat
  /-- `rel_base`, the relative base (R17). -/
  relBase : Int
  /-- `run`, the run state (R18). -/
  run : RunState
  /-- `err`, the error kind; `none` is NONE (R19). -/
  err : Option ErrKind
  /-- The tape, `mem` and `mem_len` (R21). -/
  mem : Memory
  /-- The input source: the answers the port still has to give, the next one first (R23).  The empty list: the port has
  not answered yet (R83). -/
  inputs : List InAnswer
  /-- The output record (R24), oldest cell first. -/
  outputs : List Int
  /-- The answers the output port will give to the next calls, the next one first (R84); past its end every cell is
  accepted (R85). -/
  sink : List OutAnswer
deriving DecidableEq, Repr

/-- Why `step` makes no step.  Both are raised by `step` alone (Machine/Step.lean), never by an instruction: every
fault of the spec is a next state with `run = failed` (R116). -/
inductive Fault where
  /-- `run = HALTED`: "the engine executes nothing more until the next reset" (R105).  Safe: the hardware makes no step
  there either. -/
  | halted
  /-- `run = FAILED`: "`FAILED` is terminal, like `HALTED`: the engine executes no further step" (R119).  Safe, for the
  same reason. -/
  | failed
deriving DecidableEq, Repr

/-- Why an instruction would have no meaning in the model. -/
inductive Refusal where
  /-- An instruction the model does not model.  No arm of `exec` answers it.  Safe. -/
  | notModelled (mnemonic : String)
deriving DecidableEq, Repr

/-- The state right after reset (R27, R133): `ip = 0`, `rel_base = 0`, `run = RUNNING`, `err = NONE`.  Reset does not
touch the tape or the ports (R134): here they are an empty tape, the null source and a sink that accepts every cell
(R85 (b), R136; DESIGN CHOICE, log entry 10).  A program is loaded by the host before reset: `State.launch`
(Machine/Launch.lean). -/
def State.reset : State where
  cfg := Config.hardware
  ip := 0
  relBase := 0
  run := .running
  err := none
  mem := { cells := [], len := 0 }
  inputs := [.exhausted]
  outputs := []
  sink := []

end Sys2Proof.Machine
end

