-- ==== Sys2Proof/Machine/Memory.lean ====
section
/-! DEFINITION. Memory: the tape as data.  A cell is read and written by address; the list of cells keeps ONE canonical
form, so that equal tapes are equal data.  Spec: 10_state.md R21, 20_memory.md R31 and R33. -/

namespace Sys2Proof.Machine

/-- The content of an address in a list of cells; what is not listed reads 0 (R21, R34). -/
def lookupCell : List (Nat × Int) → Nat → Int
  | [], _ => 0
  | (b, w) :: rest, a => if b = a then w else lookupCell rest a

/-- Take an address out of a list of cells: it reads 0 afterwards. -/
def eraseCell (l : List (Nat × Int)) (a : Nat) : List (Nat × Int) :=
  l.filter fun p => !(p.1 == a)

/-- Put a cell at its place in a list that does not hold its address. -/
def insertCell : List (Nat × Int) → Nat → Int → List (Nat × Int)
  | [], a, v => [(a, v)]
  | (b, w) :: rest, a, v =>
    if a < b then (a, v) :: (b, w) :: rest else (b, w) :: insertCell rest a v

/-- Write a cell; writing 0, which an unlisted address reads as, removes the entry. -/
def setCell (l : List (Nat × Int)) (a : Nat) (v : Int) : List (Nat × Int) :=
  if v = 0 then eraseCell l a else insertCell (eraseCell l a) a v

/-- `mem[a]`, "the content of cell `a` without side effect" (00_scope.md R12). -/
def Memory.cell (m : Memory) (a : Nat) : Int := lookupCell m.cells a

/-- The tape extended to a length of at least `n` (R33); the cells it gains are zero, "they already are". -/
def Memory.growTo (m : Memory) (n : Nat) : Memory :=
  if n ≤ m.len then m else { m with len := n }

/-- The tape after the write of `v` at `a`, extended to include `a` (R33, R35). -/
def Memory.store (m : Memory) (a : Nat) (v : Int) : Memory :=
  { cells := setCell m.cells a v, len := (m.growTo (a + 1)).len }

/-- The canonical form of a tape: addresses strictly rising, no listed cell 0 (what an unlisted address reads as), and
every listed address below `mem_len` (R21: "`mem[a] = 0` for every `a >= mem_len`"). -/
abbrev Memory.wf (m : Memory) : Prop :=
  m.cells.Pairwise (fun p q => p.1 < q.1) ∧ ∀ p ∈ m.cells, p.2 ≠ 0 ∧ p.1 < m.len

/-- The non-zero cells of an image that starts at address `i`. -/
def imageCells : Nat → List Int → List (Nat × Int)
  | _, [] => []
  | i, c :: rest => if c = 0 then imageCells (i + 1) rest else (i, c) :: imageCells (i + 1) rest

/-- The tape that holds an image: `mem[i] = ci`, `mem_len = n`, all other cells 0 (70_reset_and_hazards.md R137). -/
def Memory.ofImage (image : List Int) : Memory where
  cells := imageCells 0 image
  len := image.length

end Sys2Proof.Machine
end

