-- ==== Sys2Proof/Machine/Ops.lean ====
section
/-! DEFINITION. Ops: the operations every instruction is made of: raising a fault, checking an address, reading and
writing one cell, calling the two ports, and moving `ip`.  Spec: 20_memory.md R32 to R38, 60_exceptions.md R116 and
R119, 41_io.md R82 to R84, 30_encoding.md R66. -/

namespace Sys2Proof.Machine

/-- What a part of an instruction gives: a value and the state after it, or, after a `raise`, the state the fault
leaves.  "Nothing after a `raise` in the same pseudocode block is executed" (00_scope.md R12). -/
inductive Attempt (α : Type) where
  /-- The part is done. -/
  | ok (v : α) (s : State)
  /-- A fault was taken; the step ends in this state. -/
  | raised (s : State)
deriving DecidableEq, Repr

/-- Do one part after another, in the order written. -/
def Attempt.andThen {α β : Type} (x : Attempt α) (f : α → State → Attempt β) : Attempt β :=
  match x with
  | .ok v s => f v s
  | .raised s => .raised s

/-- The end of an instruction: a fault the spec describes is a next state too, the FAILED one (60_exceptions.md
R116). -/
def Attempt.outcome (x : Attempt Unit) : Host.Outcome State Fault Refusal :=
  match x with
  | .ok _ s => .next s
  | .raised s => .next s

/-! ## Taking a fault, and what there is in place of a return -/

/-- `raise K(info)`: "does this and nothing else: `run <- FAILED`; `err <- K`; the step ends" (R116).  The diagnostic
`info` is not recorded (R124). -/
def State.raise (k : ErrKind) (s : State) : State :=
  { s with run := .failed, err := some k }

/-- The numeric codes of R110. -/
def ErrKind.code : ErrKind → Nat
  | .invalidOpCode => 1
  | .invalidParameterMode => 2
  | .missingInput => 3
  | .ioTransportFailure => 4
  | .ioParseFailure => 5
  | .negativeAddress => 6
  | .addressOutOfRange => 7
  | .arithmeticOverflow => 8

/-- `err` as the number the host reads: 0 is NONE (R19, R110). -/
def State.errCode (s : State) : Nat :=
  match s.err with
  | none => 0
  | some k => k.code

/-- Reset, the start of an `execute`: `ip <- 0`, `rel_base <- 0`, `run <- RUNNING`, `err <- NONE`; the tape and the ports
stay (R133, R134).  There is no return from a fault: "The only way out of `FAILED` is a new reset" (R119). -/
def State.start (s : State) : State :=
  { s with ip := 0, relBase := 0, run := .running, err := none }

/-! ## Memory access -/

/-- The state with the tape extended to a length of at least `n` (R33). -/
def State.growTo (s : State) (n : Nat) : State := { s with mem := s.mem.growTo n }

/-- The state after the write of `v` at the legal address `a` (R35). -/
def State.store (s : State) (a : Nat) (v : Int) : State := { s with mem := s.mem.store a v }

/-- `CheckAddr(a)` (R32): below 0 `NegativeAddress` (R37), at or above `ADDR_LIMIT` `AddressOutOfRange` (R38), else the
address is legal. -/
def checkAddr (a : Int) (s : State) : Attempt Nat :=
  if a < 0 then .raised (s.raise .negativeAddress)
  else if (s.cfg.addrLimit : Int) ≤ a then .raised (s.raise .addressOutOfRange)
  else .ok a.toNat s

/-- `MemRead(addr, 1)` (R34), "the only way the engine reads memory", growth included (R36). -/
def memRead (addr : Int) (s : State) : Attempt Int :=
  (checkAddr addr s).andThen fun a s => .ok (s.mem.cell a) (s.growTo (a + 1))

/-- `MemWrite(addr, 1, v)` (R35), "the only way the engine writes memory". -/
def memWrite (addr : Int) (v : Int) (s : State) : Attempt Unit :=
  (checkAddr addr s).andThen fun a s => .ok () (s.store a v)

/-- The fetch: `word <- MemRead(ip, 1)` (R64). -/
def fetch (s : State) : Attempt Int := memRead s.ip s

/-! ## The ports -/

/-- The cell range (00_scope.md R6, 40_arithmetic.md R73). -/
abbrev InCell (c : Config) (v : Int) : Prop := cellMin c.xlen ≤ v ∧ v ≤ cellMax c.xlen

/-- An answer that the port can return: a value it carries is a cell (R82). -/
def InAnswer.inRange (c : Config) : InAnswer → Bool
  | .value v => decide (InCell c v)
  | .exhausted => true
  | .transportError => true
  | .parseError => true

/-- What the transport makes of an answer: "A value the transport cannot represent as a cell (outside the cell range) is
the transport's `ParseError`, not the engine's concern" (R82). -/
def InAnswer.delivered (c : Config) (a : InAnswer) : InAnswer := if a.inRange c then a else .parseError

/-- `PortIn()` (R82): the next answer and the state after it, or `none` while the environment has not answered (R83).
"`PortIn` never returns a value outside the cell range" (R82), whatever stands in `inputs`.  Answers are "consumed from
the front, one per executed INPUT" (R23); an `Exhausted` answer consumes nothing and stands "for ever" (R23; DEDUCED, log
entries 7 and 8). -/
def portIn (s : State) : Option (InAnswer × State) :=
  match s.inputs with
  | [] => none
  | .exhausted :: _ => some (.exhausted, s)
  | .value v :: rest => some (InAnswer.delivered s.cfg (.value v), { s with inputs := rest })
  | .transportError :: rest => some (.transportError, { s with inputs := rest })
  | .parseError :: rest => some (.parseError, { s with inputs := rest })

/-- The state with a cell appended to the output record (R24). -/
def State.record (s : State) (v : Int) : State := { s with outputs := s.outputs ++ [v] }

/-- `PortOut(v)` (R84): answers at once.  On `Accepted` the cell is in the record; on `TransportError` the environment's
own bit says whether it is (U7, log entry 9). -/
def portOut (v : Int) (s : State) : OutAnswer × State :=
  match s.sink with
  | [] => (.accepted, s.record v)
  | .accepted :: rest => (.accepted, { s with sink := rest }.record v)
  | .transportError true :: rest => (.transportError true, { s with sink := rest }.record v)
  | .transportError false :: rest => (.transportError false, { s with sink := rest })

/-- The environment answers: the one event that lifts a hold on input (R83).  The answer that comes is the one the
transport delivers, so a value that waits in `inputs` is a cell (R82). -/
def State.answer (a : InAnswer) (s : State) : State := { s with inputs := s.inputs ++ [a.delivered s.cfg] }

/-! ## The instruction pointer -/

/-- `ip <- ip + width`, written last (R66). -/
def State.advance (s : State) (width : Nat) : State := { s with ip := s.ip + width }

/-- `ip <- target` (R94). -/
def State.jump (s : State) (target : Nat) : State := { s with ip := target }

end Sys2Proof.Machine
end

