-- ==== Sys2Proof/Machine/Alu.lean ====
section
/-! DEFINITION. Alu: narrowing an exact result to a cell, and the two operations that can overflow.
Spec: 40_arithmetic.md R73 to R75, 00_scope.md R6, R8 and R12. -/

namespace Sys2Proof.Machine

/-- `wrap_XLEN(v)`: "the unique integer `r` in `[-2^(N-1), 2^(N-1) - 1]` with `r ≡ v (mod 2^N)`" (R12). -/
def wrapCell (c : Config) (v : Int) : Int := Int.bmod v (2 ^ c.xlen)

/-- The cell an exact result narrows to, `none` where `to_cell` raises (R73). -/
def narrow (c : Config) (v : Int) : Option Int :=
  if InCell c v then some v
  else match c.overflow with
    | .fault => none
    | .wrap => some (wrapCell c v)

/-- `to_cell(v)` (R73). -/
def toCell (v : Int) (s : State) : Attempt Int :=
  match narrow s.cfg v with
  | some r => .ok r s
  | none => .raised (s.raise .arithmeticOverflow)

/-- `alu_add(x, y) = to_cell(x + y)` (R74). -/
def aluAdd (x y : Int) (s : State) : Attempt Int := toCell (x + y) s

/-- `alu_mul(x, y) = to_cell(x * y)` (R75). -/
def aluMul (x y : Int) (s : State) : Attempt Int := toCell (x * y) s

end Sys2Proof.Machine
end

