-- ==== Sys2Proof/Syntax.lean ====
section
/-! DEFINITION. Syntax: the decoded view of an instruction word, one constructor per row of spec/opcode_table.json.
Spec: 30_encoding.md R47 to R56.

An `Instr` is what R48 reads from the ONE cell at `ip`: the operation and the mode digits it examines.  The raw
parameter words at `ip + 1`, `ip + 2`, `ip + 3` are not part of it: the engine reads them from the tape while the
instruction executes (R45, R57), each read can grow the tape or fault, and R59 fixes where in the order it happens.
(DEDUCED, log entry 17.) -/

namespace Sys2Proof

/-- A parameter's mode digit (R51). -/
inductive Mode where
  /-- Digit 0: the raw word is an address. -/
  | position
  /-- Digit 1: the raw word is the value. -/
  | immediate
  /-- Digit 2: `raw + rel_base` is an address (only when `REL_EN`). -/
  | relative
  /-- Digits 3 to 9: "3 to 9 are invalid" (R51); resolving the parameter raises `InvalidParameterMode`. -/
  | invalid (digit : Nat)
deriving DecidableEq, Repr

/-- The instructions, in the table's order.  Mode arguments stand in parameter order: `m1` is `mode(1)`, the hundreds
digit (R48). -/
inductive Instr where
  /-- ADD, opcode 1: `mem[dst] = a + b` (40_arithmetic.md R78). -/
  | add (m1 m2 m3 : Mode)
  /-- MUL, opcode 2: `mem[dst] = a * b` (40_arithmetic.md R79). -/
  | mul (m1 m2 m3 : Mode)
  /-- INPUT [IN], opcode 3: no mode digit is examined (41_io.md R86, R87). -/
  | input
  /-- OUTPUT [OUT], opcode 4 (41_io.md R88). -/
  | output (m1 : Mode)
  /-- JUMP-IF-TRUE [JT], opcode 5 (42_jumps.md R92). -/
  | jumpIfTrue (m1 m2 : Mode)
  /-- JUMP-IF-FALSE [JF], opcode 6 (42_jumps.md R93). -/
  | jumpIfFalse (m1 m2 : Mode)
  /-- LESS-THAN [LT], opcode 7 (43_compare.md R98). -/
  | lessThan (m1 m2 m3 : Mode)
  /-- EQUALS [EQ], opcode 8 (43_compare.md R99). -/
  | equals (m1 m2 m3 : Mode)
  /-- ADJUST-RELATIVE-BASE [ARB], opcode 9 (44_relbase.md R102). -/
  | adjustRelBase (m1 : Mode)
  /-- HALT, opcode 99 (45_halt_and_invalid.md R105). -/
  | halt
  /-- Every other opcode value, 0 and 10 to 98 (45_halt_and_invalid.md R108). -/
  | illegalOpcode (opcode : Nat)
  /-- Every negative instruction word (30_encoding.md R49). -/
  | negativeWord (word : Int)
deriving DecidableEq, Repr

end Sys2Proof
end

