-- ==== Sys2Proof/Machine/Operands.lean ====
section
/-! DEFINITION. Operands: the addressing-mode multiplexer, every operand form the spec gives.
Spec: 30_encoding.md R57 to R63. -/

namespace Sys2Proof.Machine

/-- `Raw(k)`: the raw word of parameter `k`, the cell at `ip + k` (R57). -/
def raw (k : Nat) (s : State) : Attempt Int := memRead ((s.ip + k : Nat) : Int) s

/-- The address a mode 2 parameter names: `alu_add(raw, rel_base)` (R58, R60). -/
def relativeAddr (k : Nat) (s : State) : Attempt Int :=
  (raw k s).andThen fun r s => aluAdd r s.relBase s

/-- `ReadOperand(k)`, the value of a source parameter (R58).  "The mode digit is tested before the raw word is read"
(R58, R59). -/
def readOperand (k : Nat) (m : Mode) (s : State) : Attempt Int :=
  match m with
  | .position => (raw k s).andThen fun r s => memRead r s
  | .immediate => raw k s
  | .relative =>
    if s.cfg.relEn then (relativeAddr k s).andThen fun a s => memRead a s
    else .raised (s.raise .invalidParameterMode)
  | .invalid _ => .raised (s.raise .invalidParameterMode)

/-- `WriteAddr(k)`, the address named by a destination parameter (R60): checked, but neither read nor grown to.  Mode 1
is never a write target and raises `InvalidParameterMode` (R61). -/
def writeAddr (k : Nat) (m : Mode) (s : State) : Attempt Nat :=
  match m with
  | .position => (raw k s).andThen fun a s => checkAddr a s
  | .immediate => .raised (s.raise .invalidParameterMode)
  | .relative =>
    if s.cfg.relEn then (relativeAddr k s).andThen fun a s => checkAddr a s
    else .raised (s.raise .invalidParameterMode)
  | .invalid _ => .raised (s.raise .invalidParameterMode)

/-- The destination of INPUT: the raw word of parameter 1 used as an address, whatever the mode digit says (R63,
41_io.md R86 and R87, 90_conflicts.md C1). -/
def inputAddr (s : State) : Attempt Nat :=
  (raw 1 s).andThen fun d s => checkAddr d s

/-- The shape of format `RRW` (R54, R64): resolve parameters 1, 2 and 3, compute, write, advance by 4. -/
def threeOperand (op : Int → Int → State → Attempt Int) (m1 m2 m3 : Mode) (s : State) : Attempt Unit :=
  (readOperand 1 m1 s).andThen fun a s =>
  (readOperand 2 m2 s).andThen fun b s =>
  (writeAddr 3 m3 s).andThen fun d s =>
  (op a b s).andThen fun v s =>
  (memWrite d v s).andThen fun _ s => .ok () (s.advance 4)

/-- The taken jump: a negative target raises `NegativeAddress` in the jump itself, any other is written to `ip`
(42_jumps.md R94). -/
def jumpTo (target : Int) (s : State) : Attempt Unit :=
  if target < 0 then .raised (s.raise .negativeAddress) else .ok () (s.jump target.toNat)

/-- The shape of format `RR` (R54, 42_jumps.md R91): both operands are resolved before the test, taken or not. -/
def conditionalJump (taken : Int → Bool) (m1 m2 : Mode) (s : State) : Attempt Unit :=
  (readOperand 1 m1 s).andThen fun a s =>
  (readOperand 2 m2 s).andThen fun b s =>
  if taken a then jumpTo b s else .ok () (s.advance 3)

end Sys2Proof.Machine
end

