-- ==== Sys2Proof/Machine/Arithmetic.lean ====
section
/-! DEFINITION. Arithmetic: ADD and MUL.  Spec: 40_arithmetic.md R78 to R80. -/

namespace Sys2Proof.Machine

/-- ADD, opcode 1: `mem[dst] = a + b` (R78). -/
def execAdd (m1 m2 m3 : Mode) (s : State) : Host.Outcome State Fault Refusal :=
  (threeOperand aluAdd m1 m2 m3 s).outcome

/-- MUL, opcode 2: `mem[dst] = a * b` (R79). -/
def execMul (m1 m2 m3 : Mode) (s : State) : Host.Outcome State Fault Refusal :=
  (threeOperand aluMul m1 m2 m3 s).outcome

end Sys2Proof.Machine
end

