-- ==== Sys2Proof/Machine/Flags.lean ====
section
/-! DEFINITION. Flags: there are none ("no status flags, no condition codes and no predicate registers", 10_state.md
R20).  What stands in their place: the truth values the comparisons write into a cell and the zero test of the jumps.
Spec: 40_arithmetic.md R76, 43_compare.md R97. -/

namespace Sys2Proof.Machine

/-- The truth value written by a comparison: "the cell 1 or the cell 0, never any other value" (R97). -/
def truthCell (b : Bool) : Int := if b then 1 else 0

/-- `alu_lt(x, y)`: 1 if `x < y` as signed integers, else 0 (R76). -/
def aluLt (x y : Int) : Int := truthCell (decide (x < y))

/-- `alu_eq(x, y)`: 1 if `x = y`, else 0 (R76). -/
def aluEq (x y : Int) : Int := truthCell (decide (x = y))

/-- The zero test of the jumps, "`x != 0` or `x = 0` on the whole cell" (R76). -/
def isNonZero (x : Int) : Bool := decide (x ≠ 0)

end Sys2Proof.Machine
end

