-- ==== Sys2Proof/Machine/Compare.lean ====
section
/-! DEFINITION. Compare: LESS-THAN and EQUALS.  Spec: 43_compare.md R97 to R100. -/

namespace Sys2Proof.Machine

/-- LESS-THAN, opcode 7: `mem[dst] = (a < b) ? 1 : 0` (R98). -/
def execLessThan (m1 m2 m3 : Mode) (s : State) : Host.Outcome State Fault Refusal :=
  (threeOperand (fun a b s => .ok (aluLt a b) s) m1 m2 m3 s).outcome

/-- EQUALS, opcode 8: `mem[dst] = (a == b) ? 1 : 0` (R99). -/
def execEquals (m1 m2 m3 : Mode) (s : State) : Host.Outcome State Fault Refusal :=
  (threeOperand (fun a b s => .ok (aluEq a b) s) m1 m2 m3 s).outcome

end Sys2Proof.Machine
end

