-- ==== Sys2Proof/Machine/HaltAndInvalid.lean ====
section
/-! DEFINITION. HaltAndInvalid: HALT, and every word that is not an instruction.  Spec: 45_halt_and_invalid.md R105 to
R109, 30_encoding.md R49. -/

namespace Sys2Proof.Machine

/-- HALT, opcode 99: `run <- HALTED`, nothing else (R105, R107). -/
def execHalt (s : State) : Host.Outcome State Fault Refusal :=
  .next { s with run := .halted }

/-- Every other opcode value: raise `InvalidOpCode(word mod 100)` (R108); the opcode is a diagnostic only (R124). -/
def execIllegalOpcode (_opcode : Nat) (s : State) : Host.Outcome State Fault Refusal :=
  .next (s.raise .invalidOpCode)

/-- Every negative word: raise `InvalidOpCode(word)`; no digit is decoded (R49). -/
def execNegativeWord (_word : Int) (s : State) : Host.Outcome State Fault Refusal :=
  .next (s.raise .invalidOpCode)

end Sys2Proof.Machine
end

