-- ==== Sys2Proof/Machine/InputOutput.lean ====
section
/-! DEFINITION. InputOutput: INPUT and OUTPUT.  Spec: 41_io.md R81 to R90. -/

namespace Sys2Proof.Machine

/-- What INPUT does with the port's answer, the destination checked (R86). -/
def storeInput (d : Nat) (answer : InAnswer) (s : State) : Attempt Unit :=
  match answer with
  | .exhausted => .raised (s.raise .missingInput)
  | .transportError => .raised (s.raise .ioTransportFailure)
  | .parseError => .raised (s.raise .ioParseFailure)
  | .value v => (memWrite d v s).andThen fun _ s => .ok () (s.advance 2)

/-- INPUT, opcode 3: `mem[dst] = io.input()` (R86).  The destination is checked before the port is asked.  While the
port has not answered, the engine is held inside the instruction: "`run` stays `RUNNING`, no state changes, and nothing
else executes" (R83), so the next state is the state itself (log entry 6). -/
def execInput (s : State) : Host.Outcome State Fault Refusal :=
  match inputAddr s with
  | .raised s' => .next s'
  | .ok d s' =>
    match portIn s' with
    | none => .next s
    | some (answer, s'') => (storeInput d answer s'').outcome

/-- What OUTPUT does with the port's answer (R88). -/
def afterOutput (answer : OutAnswer) (s : State) : Attempt Unit :=
  match answer with
  | .transportError _ => .raised (s.raise .ioTransportFailure)
  | .accepted => .ok () (s.advance 2)

/-- OUTPUT, opcode 4: `io.output(a)` (R88). -/
def execOutput (m1 : Mode) (s : State) : Host.Outcome State Fault Refusal :=
  ((readOperand 1 m1 s).andThen fun a s => afterOutput (portOut a s).1 (portOut a s).2).outcome

end Sys2Proof.Machine
end

