-- ==== Sys2Proof/Machine/Jumps.lean ====
section
/-! DEFINITION. Jumps: JUMP-IF-TRUE and JUMP-IF-FALSE.  Spec: 42_jumps.md R91 to R95. -/

namespace Sys2Proof.Machine

/-- JUMP-IF-TRUE, opcode 5: if `a != 0`, `ip = b`, else `ip += 3` (R92). -/
def execJumpIfTrue (m1 m2 : Mode) (s : State) : Host.Outcome State Fault Refusal :=
  (conditionalJump isNonZero m1 m2 s).outcome

/-- JUMP-IF-FALSE, opcode 6: if `a == 0`, `ip = b`, else `ip += 3` (R93). -/
def execJumpIfFalse (m1 m2 : Mode) (s : State) : Host.Outcome State Fault Refusal :=
  (conditionalJump (fun a => !isNonZero a) m1 m2 s).outcome

end Sys2Proof.Machine
end

