-- ==== Sys2Proof/Machine/RelBase.lean ====
section
/-! DEFINITION. RelBase: ADJUST-RELATIVE-BASE.  Spec: 44_relbase.md R102 to R104. -/

namespace Sys2Proof.Machine

/-- `rel_base <- v` (R102). -/
def State.setRelBase (s : State) (v : Int) : State := { s with relBase := v }

/-- ADJUST-RELATIVE-BASE, opcode 9: `rel_base += a` (R102).  With `REL_EN = false` "the opcode does not exist":
`InvalidOpCode` (R104). -/
def execAdjustRelBase (m1 : Mode) (s : State) : Host.Outcome State Fault Refusal :=
  if s.cfg.relEn then
    ((readOperand 1 m1 s).andThen fun a s =>
      (aluAdd s.relBase a s).andThen fun v s => .ok () ((s.setRelBase v).advance 2)).outcome
  else .next (s.raise .invalidOpCode)

end Sys2Proof.Machine
end

