-- ==== Sys2Proof/Machine/Dispatch.lean ====
section
/-! DEFINITION. Dispatch: from an instruction to its meaning, one arm per constructor (30_encoding.md R52, R65). -/

namespace Sys2Proof.Machine

def exec (i : Instr) (s : State) : Host.Outcome State Fault Refusal :=
  match i with
  | .add m1 m2 m3 => Sys2Proof.Machine.execAdd m1 m2 m3 s
  | .mul m1 m2 m3 => Sys2Proof.Machine.execMul m1 m2 m3 s
  | .input => Sys2Proof.Machine.execInput s
  | .output m1 => Sys2Proof.Machine.execOutput m1 s
  | .jumpIfTrue m1 m2 => Sys2Proof.Machine.execJumpIfTrue m1 m2 s
  | .jumpIfFalse m1 m2 => Sys2Proof.Machine.execJumpIfFalse m1 m2 s
  | .lessThan m1 m2 m3 => Sys2Proof.Machine.execLessThan m1 m2 m3 s
  | .equals m1 m2 m3 => Sys2Proof.Machine.execEquals m1 m2 m3 s
  | .adjustRelBase m1 => Sys2Proof.Machine.execAdjustRelBase m1 s
  | .halt => Sys2Proof.Machine.execHalt s
  | .illegalOpcode opcode => Sys2Proof.Machine.execIllegalOpcode opcode s
  | .negativeWord word => Sys2Proof.Machine.execNegativeWord word s

end Sys2Proof.Machine
end

