-- ==== Sys2Proof/WellFormed.lean ====
section
/-! DEFINITION. WellFormed: which terms of `Instr` some instruction word stands for (30_encoding.md R48, R51, R52,
45_halt_and_invalid.md R108, 30_encoding.md R49). -/

namespace Sys2Proof

/-- An invalid mode is one of the digits 3 to 9 (R51); the other three modes carry no number. -/
def Mode.wf : Mode → Bool
  | .position => true
  | .immediate => true
  | .relative => true
  | .invalid d => decide (3 ≤ d ∧ d ≤ 9)

/-- The opcode values that are no instruction: 0 and 10 to 98 (R52, R108). -/
def illegalOpcodeValue (op : Nat) : Bool :=
  decide (op = 0 ∨ (10 ≤ op ∧ op ≤ 98))

/-- A well-formed instruction: what the decoder can give. -/
def Instr.wf : Instr → Bool
  | .add m1 m2 m3 => m1.wf && m2.wf && m3.wf
  | .mul m1 m2 m3 => m1.wf && m2.wf && m3.wf
  | .input => true
  | .output m1 => m1.wf
  | .jumpIfTrue m1 m2 => m1.wf && m2.wf
  | .jumpIfFalse m1 m2 => m1.wf && m2.wf
  | .lessThan m1 m2 m3 => m1.wf && m2.wf && m3.wf
  | .equals m1 m2 m3 => m1.wf && m2.wf && m3.wf
  | .adjustRelBase m1 => m1.wf
  | .halt => true
  | .illegalOpcode op => illegalOpcodeValue op
  | .negativeWord w => decide (w < 0)

end Sys2Proof
end

