-- ==== Sys2Proof/Decode.lean ====
section
/-! DEFINITION. Decode: from an instruction word to an `Instr`, and back.  The fields are DECIMAL digits (30_encoding.md
R48 to R53).  The decoder is total: "there is no word for which the engine's behaviour is not defined by this spec"
(R65); the words that are no instruction decode to a constructor of their own name, `illegalOpcode` or
`negativeWord`. -/

namespace Sys2Proof

/-- `digit(w, j) = floor(w / 10^j) mod 10` (00_scope.md R12). -/
def digit (w j : Nat) : Nat := w / 10 ^ j % 10

/-- The mode a digit stands for (R51). -/
def Mode.ofDigit : Nat → Mode
  | 0 => .position
  | 1 => .immediate
  | 2 => .relative
  | d => .invalid d

/-- The digit of a mode (R51). -/
def Mode.digit : Mode → Nat
  | .position => 0
  | .immediate => 1
  | .relative => 2
  | .invalid d => d

/-- `mode(k) = digit(word, k + 1)`, `k = 1, 2, 3` (R51). -/
def modeOf (w k : Nat) : Mode := Mode.ofDigit (digit w (k + 1))

/-- The decoder, total on cells: R49 first (a negative word decodes to nothing else), then dispatch on
`word mod 100` through the opcode map (R50, R52, R65).  Digits the instruction does not use are not looked at (R55,
R87, R106).  Whether opcode 9 exists depends on `REL_EN` and is tested where the instruction executes (R104). -/
def decode (word : Int) : Instr :=
  if word < 0 then .negativeWord word
  else
    let w := word.toNat
    match w % 100 with
    | 1 => .add (modeOf w 1) (modeOf w 2) (modeOf w 3)
    | 2 => .mul (modeOf w 1) (modeOf w 2) (modeOf w 3)
    | 3 => .input
    | 4 => .output (modeOf w 1)
    | 5 => .jumpIfTrue (modeOf w 1) (modeOf w 2)
    | 6 => .jumpIfFalse (modeOf w 1) (modeOf w 2)
    | 7 => .lessThan (modeOf w 1) (modeOf w 2) (modeOf w 3)
    | 8 => .equals (modeOf w 1) (modeOf w 2) (modeOf w 3)
    | 9 => .adjustRelBase (modeOf w 1)
    | 99 => .halt
    | op => .illegalOpcode op

/-- The width: "total cells consumed including the opcode word", from the opcode alone (R53).  The illegal words
consume nothing beyond the fetch (R108), so only their own cell is counted (DEDUCED; no rule reads it). -/
def Instr.width : Instr → Nat
  | .add _ _ _ => 4
  | .mul _ _ _ => 4
  | .input => 2
  | .output _ => 2
  | .jumpIfTrue _ _ => 3
  | .jumpIfFalse _ _ => 3
  | .lessThan _ _ _ => 4
  | .equals _ _ _ => 4
  | .adjustRelBase _ => 2
  | .halt => 1
  | .illegalOpcode _ => 1
  | .negativeWord _ => 1

/-- The word `ABCDE` of R48: `DE` the opcode, `C`, `B`, `A` the modes of parameters 1, 2, 3. -/
def wordOf (opcode c b a : Nat) : Int :=
  ((opcode + 100 * c + 1000 * b + 10000 * a : Nat) : Int)

/-- The encoder: the canonical word of an instruction (R54, R55, R72), every unexamined digit 0. -/
def encode : Instr → Int
  | .add m1 m2 m3 => wordOf 1 m1.digit m2.digit m3.digit
  | .mul m1 m2 m3 => wordOf 2 m1.digit m2.digit m3.digit
  | .input => wordOf 3 0 0 0
  | .output m1 => wordOf 4 m1.digit 0 0
  | .jumpIfTrue m1 m2 => wordOf 5 m1.digit m2.digit 0
  | .jumpIfFalse m1 m2 => wordOf 6 m1.digit m2.digit 0
  | .lessThan m1 m2 m3 => wordOf 7 m1.digit m2.digit m3.digit
  | .equals m1 m2 m3 => wordOf 8 m1.digit m2.digit m3.digit
  | .adjustRelBase m1 => wordOf 9 m1.digit 0 0
  | .halt => wordOf 99 0 0 0
  | .illegalOpcode op => wordOf op 0 0 0
  | .negativeWord w => w

/-- How many mode digits the opcode examines: R54's formats `RRW` 3, `RR` 2, `R` 1, `W` and `N` 0. -/
def examinedModes (opcode : Nat) : Nat :=
  match opcode with
  | 1 => 3
  | 2 => 3
  | 4 => 1
  | 5 => 2
  | 6 => 2
  | 7 => 3
  | 8 => 3
  | 9 => 1
  | _ => 0

/-- Cell `k` of a row's bits, when the cells of an instruction are laid one after another as `xlen`-bit
two's-complement numbers, the first cell in the low bits.  The ISA is decimal and gives no bit layout ("There is no
bit-level encoding to give", 30_encoding.md); this numbering serves only `decodeTableWord` and `withFetchWord`
(DESIGN CHOICE, log entry 18). -/
def cellOfBits (xlen bits k : Nat) : Int :=
  Int.bmod ((bits / 2 ^ (xlen * k) : Nat) : Int) (2 ^ xlen)

/-- The instruction the decoder reads from an instruction whose bits, numbered from the first cell's least significant
bit, are `w`; bits at and above `nbits` are 0.  The decoder refuses nothing (R65), so the answer is never `none`. -/
def decodeTableWord (nbits w : Nat) : Option Instr :=
  some (decode (cellOfBits Config.hardware.xlen (w % 2 ^ nbits) 0))

end Sys2Proof
end

