-- ==== Sys2Proof/Machine/Launch.lean ====
section
/-! DEFINITION. Launch: what the host does outside a run: the launch of a program, and reset after a run has ended.
Spec: 70_reset_and_hazards.md R132 to R141. -/

namespace Sys2Proof.Machine

/-- "The inputs of a run, which a model takes as arguments of its launch state" (R137). -/
structure Launch where
  cfg : Config
  image : List Int
  inputs : List InAnswer
  outputs : List Int
  sink : List OutAnswer
deriving DecidableEq, Repr

/-- A legal launch: legal parameters, `n <= ADDR_LIMIT`, every cell in the cell range (R137). -/
abbrev Launch.ok (l : Launch) : Prop :=
  l.cfg.wf ∧ l.image.length ≤ l.cfg.addrLimit ∧ (∀ c ∈ l.image, InCell l.cfg c) ∧
    (∀ a ∈ l.inputs, a.inRange l.cfg = true) ∧ ∀ c ∈ l.outputs, InCell l.cfg c

/-- The first state of a run (R27, R133, R137).  An image out of range is the parser's error, not the engine's: the
launch is refused (U14). -/
def State.launch (l : Launch) : Option State :=
  if l.ok then
    some (State.start
      { cfg := l.cfg, ip := 0, relBase := 0, run := .running, err := none, mem := Memory.ofImage l.image,
        inputs := l.inputs, outputs := l.outputs, sink := l.sink })
  else none

/-- The preset input source `[v1, ..., vn]`: `Value(v1)`, ..., `Value(vn)`, "then `Exhausted` for ever" (R23, R85 (a)). -/
def presetInput (vs : List Int) : List InAnswer := vs.map .value ++ [.exhausted]

/-- Reset by the host: "may be applied whenever the engine is not running" and "cannot be applied during a run"
(R132). -/
def State.restart (s : State) : Option State :=
  match s.run with
  | .running => none
  | .halted => some s.start
  | .failed => some s.start

/-- The four cells of the longest instruction, taken from a row's bits and put at `ip` and the three addresses after
it, each where the address is legal (log entries 18 and 19). -/
def placeCells (cfg : Config) (ip : Nat) (bits : Nat) : Nat → Memory → Memory
  | 0, m => m
  | k + 1, m =>
    let m' := placeCells cfg ip bits k m
    if ip + k < cfg.addrLimit then m'.store (ip + k) (cellOfBits cfg.xlen bits k) else m'

/-- The number of cells of the longest instruction (30_encoding.md R53). -/
def longestInstr : Nat := 4

end Sys2Proof.Machine
end

