-- ==== Sys2Proof/Machine/Step.lean ====
section
/-! DEFINITION. Step: one step of the engine, enabled only while `run = RUNNING` (30_encoding.md R64). -/

namespace Sys2Proof.Machine

/-- `Step()`: fetch the word at `ip`, decode it anew (R56), execute it.  In `HALTED` and `FAILED` the engine executes no
step (10_state.md R18, 60_exceptions.md R119). -/
def step (s : State) : Host.Outcome State Fault Refusal :=
  match s.run with
  | .halted => .fault .halted
  | .failed => .fault .failed
  | .running =>
    match fetch s with
    | .raised s' => .next s'
    | .ok word s' => exec (decode word) s'

/-- The state in which the next step fetches and runs the instruction whose bits, in the table's numbering, are `w`: its
cells stand at `ip` and after it, and the engine is running (log entries 18 and 19). -/
def State.withFetchWord (s : State) (nbits w : Nat) : State :=
  { s with run := .running, err := none, mem := placeCells s.cfg s.ip (w % 2 ^ nbits) longestInstr s.mem }

end Sys2Proof.Machine
end

