-- ==== Sys2Proof/Safety.lean ====
section
/-! DEFINITION. Safety: the machine's invariant (10_state.md R29), the end of a run (70_reset_and_hazards.md R139), and
the words in which claims speak of operands: what a parameter's value, address and fault are, as functions of the state
BEFORE the instruction, with no side effect.  The machine does not use this file. -/

namespace Sys2Proof.Machine

/-- What holds "in every reachable state" (R29), with the ranges of the port data (41_io.md R82), the legal parameters
(00_scope.md R6, R7) and the constant `rel_base` of the variant without relative mode (R9). -/
structure State.Inv (s : State) : Prop where
  /-- The parameters are legal (R6, R7). -/
  cfgWf : s.cfg.wf
  /-- The tape is canonical, and `mem[a] = 0` for all `a >= mem_len` (R29 (b)). -/
  memWf : s.mem.wf
  /-- `mem_len <= ADDR_LIMIT` (R29 (a)). -/
  lenLe : s.mem.len ≤ s.cfg.addrLimit
  /-- Every cell is in the cell range (R29 (c)). -/
  cellsIn : ∀ p ∈ s.mem.cells, InCell s.cfg p.2
  /-- `rel_base` is in the cell range (R29 (c)). -/
  relBaseIn : InCell s.cfg s.relBase
  /-- `0 <= ip < 2^XLEN` (R29 (d)). -/
  ipLt : s.ip < 2 ^ s.cfg.xlen
  /-- `err = NONE` if and only if `run != FAILED` (R29 (e)). -/
  errNone : s.err = none ↔ s.run ≠ .failed
  /-- The port returns cells only (R82). -/
  inputsIn : ∀ a ∈ s.inputs, a.inRange s.cfg = true
  /-- The record holds cells (R24). -/
  outputsIn : ∀ v ∈ s.outputs, InCell s.cfg v
  /-- "With `REL_EN = false` it is constant 0" (R17). -/
  relBaseZero : s.cfg.relEn = false → s.relBase = 0

/-- "A run has ended when `run` is `HALTED` or `FAILED`" (R139). -/
abbrev State.ended (s : State) : Prop := s.run = .halted ∨ s.run = .failed

/-- "It has ended well exactly when `run = HALTED`" (R139): what a claim about a program's result is about. -/
abbrev State.endedWell (s : State) : Prop := s.run = .halted

/-- `t` is reached from `s` by steps of the engine and answers of the input port, which may come at any time (41_io.md
R83). -/
inductive Reaches : State → State → Prop
  | here (s : State) : Reaches s s
  | step {s t u : State} : Reaches s t → Sys2Proof.Machine.step t = .next u → Reaches s u
  | answer {s t : State} (a : InAnswer) : Reaches s t → Reaches s (t.answer a)

/-! ## Parameters, seen from before the instruction -/

/-- A legal address (20_memory.md R32). -/
abbrev LegalAddr (c : Config) (a : Int) : Prop := 0 ≤ a ∧ a < (c.addrLimit : Int)

/-- `Raw(k)` as a value (30_encoding.md R57). -/
def State.rawWord (s : State) (k : Nat) : Int := s.mem.cell (s.ip + k)

/-- The address a parameter in mode `m` names, legal or not: the raw word, or the narrowed sum `raw + rel_base` (R62);
`none` for the other modes, and where the sum does not narrow. -/
def State.namedAddr (s : State) (k : Nat) (m : Mode) : Option Int :=
  match m with
  | .position => some (s.rawWord k)
  | .relative => if s.cfg.relEn then narrow s.cfg (s.rawWord k + s.relBase) else none
  | .immediate => none
  | .invalid _ => none

/-- The legal address a parameter names. -/
def State.operandAddr (s : State) (k : Nat) (m : Mode) : Option Nat :=
  match s.namedAddr k m with
  | some a => if LegalAddr s.cfg a then some a.toNat else none
  | none => none

/-- The value of a source parameter that resolves (R58, R62), and `none` where it faults. -/
def State.source (s : State) (k : Nat) (m : Mode) : Option Int :=
  if s.ip + k < s.cfg.addrLimit then
    if m = .immediate then some (s.rawWord k) else (s.operandAddr k m).map s.mem.cell
  else none

/-- The address of a destination parameter that resolves (R60, R62), and `none` where it faults. -/
def State.dest (s : State) (k : Nat) (m : Mode) : Option Nat :=
  if s.ip + k < s.cfg.addrLimit then s.operandAddr k m else none

/-- The address INPUT stores to, whatever its mode digit (41_io.md R87), and `none` where it faults. -/
def State.inputDest (s : State) : Option Nat := s.dest 1 .position

/-- The length of tape that resolving a source parameter touches (20_memory.md R33, R36). -/
def State.reach (s : State) (k : Nat) (m : Mode) : Nat :=
  max (s.ip + k + 1) (match s.operandAddr k m with
    | some a => a + 1
    | none => 0)

/-- The fault an address raises, if any (20_memory.md R32, R37, R38). -/
def addrFault (c : Config) (a : Int) : Option ErrKind :=
  if a < 0 then some .negativeAddress
  else if (c.addrLimit : Int) ≤ a then some .addressOutOfRange
  else none

/-- The first fault that resolving a parameter meets AFTER its mode digit is accepted: the raw word's address, the
mode 2 sum, the named address (30_encoding.md R59). -/
def State.namedFault (s : State) (k : Nat) (m : Mode) : Option ErrKind :=
  if s.cfg.addrLimit ≤ s.ip + k then some .addressOutOfRange
  else match s.namedAddr k m with
    | some a => addrFault s.cfg a
    | none => some .arithmeticOverflow

/-- The first fault a source parameter meets, in the order of R59. -/
def State.sourceFault (s : State) (k : Nat) (m : Mode) : Option ErrKind :=
  match m with
  | .position => s.namedFault k m
  | .immediate => if s.cfg.addrLimit ≤ s.ip + k then some .addressOutOfRange else none
  | .relative => if s.cfg.relEn then s.namedFault k m else some .invalidParameterMode
  | .invalid _ => some .invalidParameterMode

/-- The first fault a destination parameter meets, in the order of R59; mode 1 is invalid there (R61). -/
def State.destFault (s : State) (k : Nat) (m : Mode) : Option ErrKind :=
  match m with
  | .position => s.namedFault k m
  | .immediate => some .invalidParameterMode
  | .relative => if s.cfg.relEn then s.namedFault k m else some .invalidParameterMode
  | .invalid _ => some .invalidParameterMode

/-! ## Whole instructions, seen from before them -/

/-- The modes of an instruction's source parameters (30_encoding.md R54). -/
def sourceModes : Instr → List Mode
  | .add m1 m2 _ => [m1, m2]
  | .mul m1 m2 _ => [m1, m2]
  | .input => []
  | .output m1 => [m1]
  | .jumpIfTrue m1 m2 => [m1, m2]
  | .jumpIfFalse m1 m2 => [m1, m2]
  | .lessThan m1 m2 _ => [m1, m2]
  | .equals m1 m2 _ => [m1, m2]
  | .adjustRelBase m1 => [m1]
  | .halt => []
  | .illegalOpcode _ => []
  | .negativeWord _ => []

/-- The mode of an instruction's destination parameter, where it has one that is resolved by its mode; INPUT's is not
(30_encoding.md R54, R63). -/
def destMode : Instr → Option Mode
  | .add _ _ m3 => some m3
  | .mul _ _ m3 => some m3
  | .input => none
  | .output _ => none
  | .jumpIfTrue _ _ => none
  | .jumpIfFalse _ _ => none
  | .lessThan _ _ m3 => some m3
  | .equals _ _ m3 => some m3
  | .adjustRelBase _ => none
  | .halt => none
  | .illegalOpcode _ => none
  | .negativeWord _ => none

/-- A mode that no parameter may have: digit 3 to 9, and 2 without `REL_EN` (30_encoding.md R59). -/
abbrev RefusedMode (c : Config) (m : Mode) : Prop := (∃ d, m = .invalid d) ∨ (m = .relative ∧ c.relEn = false)

/-- The jump `i`, with the modes `m1` and `m2`, is taken when its first operand is `a` (42_jumps.md R92, R93). -/
abbrev JumpTaken (i : Instr) (m1 m2 : Mode) (a : Int) : Prop :=
  (i = .jumpIfTrue m1 m2 ∧ a ≠ 0) ∨ (i = .jumpIfFalse m1 m2 ∧ a = 0)

/-- The modes of all the parameters that an instruction resolves by mode. -/
abbrev paramModes (i : Instr) : List Mode := sourceModes i ++ (destMode i).toList

/-- The state after a format `RRW` instruction that completes: the result `v` at the destination `d`, the tape as long as
its parameters and operands need, `ip` past its four cells, all else unchanged (30_encoding.md R54, R64, R66). -/
def State.afterWrite (s : State) (m1 m2 : Mode) (d : Nat) (v : Int) : State :=
  { s with
    ip := s.ip + 4
    mem := (s.mem.growTo (max (max (s.reach 1 m1) (s.reach 2 m2)) (s.ip + 4))).store d v }

/-- The first fault of a format `RRW` instruction, in the order of 60_exceptions.md R115: parameters 1, 2 and 3, then the
ALU result, which `result` computes from the operand values. -/
def State.threeFault (s : State) (result : Int → Int → Option Int) (m1 m2 m3 : Mode) : Option ErrKind :=
  match s.sourceFault 1 m1 with
  | some e => some e
  | none =>
    match s.sourceFault 2 m2 with
    | some e => some e
    | none =>
      match s.destFault 3 m3 with
      | some e => some e
      | none =>
        match s.source 1 m1, s.source 2 m2 with
        | some a, some b => if result a b = none then some .arithmeticOverflow else none
        | _, _ => none

/-- The first fault in resolving the two operands of a jump (42_jumps.md R91). -/
def State.twoFault (s : State) (m1 m2 : Mode) : Option ErrKind :=
  match s.sourceFault 1 m1 with
  | some e => some e
  | none => s.sourceFault 2 m2

/-- The address a format `RRW` instruction stores to: `WriteAddr(3)` in the state after the two operands are read, as
the meanings compute it; `none` where the instruction faults before it has one. -/
def storeAddress (m1 m2 m3 : Mode) (s : State) : Option Nat :=
  match (readOperand 1 m1 s).andThen fun _ s => (readOperand 2 m2 s).andThen fun _ s => writeAddr 3 m3 s with
  | .ok d _ => some d
  | .raised _ => none

/-- The address INPUT stores to, as its meaning computes it. -/
def inputStoreAddress (s : State) : Option Nat :=
  match inputAddr s with
  | .ok d _ => some d
  | .raised _ => none

/-- `t` is `s` after a precise fault of kind `e` (60_exceptions.md R116, R117): FAILED with that kind, and nothing else
changed but a tape that may have become longer. -/
abbrev FaultedWith (e : ErrKind) (s t : State) : Prop :=
  ∃ n, s.mem.len ≤ n ∧ t = { s with run := .failed, err := some e, mem := { s.mem with len := n } }

end Sys2Proof.Machine
end

