-- ==== Sys2Proof/Certificates/Slice0/Obligations.lean ====
section
/-! DEFINITION. Obligations: the statements about the model, from the spec's numbered rules.  Each docstring names the
rules a statement formalises; a clause that rests on a choice of the model names its log entry. -/

open Sys2Proof Sys2Proof.Machine

/-! ## Encoding -/

/-- R48, R51, R52, R54, R72: no digit of an encoding is dropped: decoding the canonical word of a well-formed
instruction gives the instruction back. -/
def Obligations.DecodeOfEncodeIsTheInstruction : Prop :=
  ∀ i : Instr, i.wf = true → decode (encode i) = i

/-- R49, R52, R65: exactly one rule applies to every word: the decoder gives a well-formed instruction for every cell. -/
def Obligations.DecodeIsAlwaysWellFormed : Prop :=
  ∀ w : Int, (decode w).wf = true

/-- R55: digits an instruction does not use are ignored: a non-negative word decodes as what is left of it when the
digits above the examined ones are taken off. -/
def Obligations.UnusedDigitsAreIgnored : Prop :=
  ∀ w : Nat, decode w = decode ((w % 10 ^ (2 + examinedModes (w % 100)) : Nat) : Int)

/-- R55, R72: encoding what a word decodes to gives the word's canonical spelling, every unexamined digit 0; a negative
word keeps its value. -/
def Obligations.EncodeOfDecodeIsTheCanonicalWord : Prop :=
  (∀ w : Nat, encode (decode w) = ((w % 10 ^ (2 + examinedModes (w % 100)) : Nat) : Int)) ∧
    ∀ w : Int, w < 0 → encode (decode w) = w

/-- R48, R72, and the words of 95_test_vectors.md: a word of each family, read digit by digit from the spec. -/
def Obligations.WordsOfTheSpecDecode : Prop :=
  decode 1002 = .mul .position .immediate .position ∧ decode 21101 = .add .immediate .immediate .relative ∧
    decode 203 = .input ∧ decode 1104 = .output .immediate ∧ decode 1205 = .jumpIfTrue .relative .immediate ∧
    decode 106 = .jumpIfFalse .immediate .position ∧ decode 20207 = .lessThan .relative .position .relative ∧
    decode 1108 = .equals .immediate .immediate .position ∧ decode 209 = .adjustRelBase .relative ∧
    decode 10099 = .halt ∧ decode 300 = .illegalOpcode 0 ∧ decode (-99) = .negativeWord (-99)

/-! ## The cycle -/

/-- R64, R56: a step of a running engine fetches the cell at `ip` (which can grow the tape, R36) and is the execution of
the instruction that cell decodes to, in the state after the fetch. -/
def Obligations.StepRunsTheDecodedInstruction : Prop :=
  ∀ s : State, s.run = .running → s.ip < s.cfg.addrLimit →
    step s = exec (decode (s.mem.cell s.ip)) (s.growTo (s.ip + 1))

/-- R34, R38, R115 (1): a fetch at or above `ADDR_LIMIT` raises `AddressOutOfRange` and changes nothing else. -/
def Obligations.FetchBeyondTheLimitFaults : Prop :=
  ∀ s : State, s.run = .running → s.cfg.addrLimit ≤ s.ip →
    step s = .next { s with run := .failed, err := some .addressOutOfRange }

/-- R36, R108: a fetch beyond the tape grows it to `ip + 1`, reads 0 and raises `InvalidOpCode`. -/
def Obligations.FetchBeyondTheTapeFaults : Prop :=
  ∀ s : State, s.mem.wf → s.run = .running → s.mem.len ≤ s.ip → s.ip < s.cfg.addrLimit →
    step s = .next { s with
      run := .failed, err := some .invalidOpCode, mem := { s.mem with len := s.ip + 1 } }

/-- R18, R119: `HALTED` and `FAILED` are terminal: the engine executes no step.  (That "no step" is the host outcome
`fault` is the model's choice, log entry 5.) -/
def Obligations.EndedEngineMakesNoStep : Prop :=
  ∀ s : State, (s.run = .halted → step s = .fault .halted) ∧ (s.run = .failed → step s = .fault .failed)

/-- The decoder is total (R65), and so is the model: every instruction has a next state in every state, and so has a
running engine.  THIS IS THE MODEL'S CHOICE where the spec has no completed step: that a fault is a next state is log
entry 5, and that an INPUT held on a silent port has a next state, its own state, is log entry 6 (R83 and R147 except the
hold). -/
def Obligations.EveryInstructionHasANextState : Prop :=
  (∀ (i : Instr) (s : State), ∃ t, exec i s = .next t) ∧ ∀ s : State, s.run = .running → ∃ t, step s = .next t

/-! ## Memory -/

/-- R34: `MemRead` at a legal address gives the cell and grows the tape to include it; beyond the old length the value is
0; it has no other effect, and a second read gives the same value; the result is a cell; at an illegal address it
raises. -/
def Obligations.MemReadGivesTheCellAndGrows : Prop :=
  ∀ (s : State) (a : Int),
    (LegalAddr s.cfg a →
      memRead a s = .ok (s.mem.cell a.toNat)
        { s with mem := { s.mem with len := if s.mem.len ≤ a.toNat then a.toNat + 1 else s.mem.len } }) ∧
    (s.mem.wf → ∀ n : Nat, s.mem.len ≤ n → s.mem.cell n = 0) ∧
    (∀ v t, memRead a s = .ok v t → memRead a t = .ok v t) ∧
    ((∀ p ∈ s.mem.cells, InCell s.cfg p.2) → ∀ v t, memRead a s = .ok v t → InCell s.cfg v) ∧
    (a < 0 → memRead a s = .raised (s.raise .negativeAddress)) ∧
    ((s.cfg.addrLimit : Int) ≤ a → memRead a s = .raised (s.raise .addressOutOfRange))

/-- R35: `MemWrite` at a legal address first extends the tape to include it, then writes; "Every other cell keeps its
value"; nothing else of the state changes; at an illegal address it raises; it never raises at an address `WriteAddr` has
given. -/
def Obligations.MemWriteWritesOneCell : Prop :=
  ∀ (s : State) (a v : Int),
    (LegalAddr s.cfg a → ∃ m : Memory,
      memWrite a v s = .ok () { s with mem := m } ∧ m.cell a.toNat = v ∧ (∀ x, x ≠ a.toNat → m.cell x = s.mem.cell x) ∧
        m.len = if s.mem.len ≤ a.toNat then a.toNat + 1 else s.mem.len) ∧
    (a < 0 → memWrite a v s = .raised (s.raise .negativeAddress)) ∧
    ((s.cfg.addrLimit : Int) ≤ a → memWrite a v s = .raised (s.raise .addressOutOfRange)) ∧
    ∀ k m d t, writeAddr k m s = .ok d t → ∃ u, memWrite (d : Int) v t = .ok () u

/-- R21, R31: the tape is a map from addresses to cells and a length: two canonical tapes that agree on both are equal
data. -/
def Obligations.TapesThatReadAlikeAreEqual : Prop :=
  ∀ m n : Memory, m.wf → n.wf → m.len = n.len → (∀ a, m.cell a = n.cell a) → m = n

/-! ## The ALU -/

/-- R73: `to_cell` keeps a result in range exactly; out of range it raises `ArithmeticOverflow` under `FAULT`, and under
`WRAP` gives the unique cell congruent to the result modulo `2^XLEN`; this hardware takes `FAULT` and 64 bits. -/
def Obligations.ToCellNarrowsExactResults : Prop :=
  State.reset.cfg.overflow = .fault ∧ cellMin State.reset.cfg.xlen = -9223372036854775808 ∧
    cellMax State.reset.cfg.xlen = 9223372036854775807 ∧
  ∀ (s : State) (v : Int), s.cfg.wf →
    (InCell s.cfg v → toCell v s = .ok v s) ∧
    (¬ InCell s.cfg v → s.cfg.overflow = .fault → toCell v s = .raised (s.raise .arithmeticOverflow)) ∧
    (¬ InCell s.cfg v → s.cfg.overflow = .wrap → ∃ r, toCell v s = .ok r s ∧
      ∀ q, q = r ↔ InCell s.cfg q ∧ ((2 ^ s.cfg.xlen : Nat) : Int) ∣ v - q)

/-- R74: `alu_add` on cells is `to_cell` of the exact sum, which lies in `[2 * MIN, 2 * MAX]`: commutative, 0 neutral,
exact in range; overflow only when both operands have the same sign;
under `WRAP` the result is off by exactly `2^XLEN`. -/
def Obligations.AluAddLaws : Prop :=
  ∀ (s : State) (x y : Int), s.cfg.wf → InCell s.cfg x → InCell s.cfg y →
    aluAdd x y s = toCell (x + y) s ∧ 2 * cellMin s.cfg.xlen ≤ x + y ∧ x + y ≤ 2 * cellMax s.cfg.xlen ∧
    aluAdd x y s = aluAdd y x s ∧ aluAdd x 0 s = .ok x s ∧ (InCell s.cfg (x + y) → aluAdd x y s = .ok (x + y) s) ∧
    (¬ InCell s.cfg (x + y) → (0 < x ∧ 0 < y ∨ x < 0 ∧ y < 0) ∧
      (s.cfg.overflow = .fault → aluAdd x y s = .raised (s.raise .arithmeticOverflow))) ∧
    (s.cfg.overflow = .wrap → cellMax s.cfg.xlen < x + y →
      aluAdd x y s = .ok (x + y - (2 ^ s.cfg.xlen : Nat)) s) ∧
    (s.cfg.overflow = .wrap → x + y < cellMin s.cfg.xlen →
      aluAdd x y s = .ok (x + y + (2 ^ s.cfg.xlen : Nat)) s)

/-- R75: `alu_mul` on cells is `to_cell` of the exact product: commutative, exact in range; by 0, 1 and -1; `MIN * -1` overflows (under `WRAP` it is `MIN`);
out of range it raises under `FAULT`, and under `WRAP` keeps the low `XLEN` bits; and the document's 64-bit product. -/
def Obligations.AluMulLaws : Prop :=
  (∀ s : State, s.cfg.xlen = 64 → aluMul 34915192 34915192 s = .ok 1219070632396864 s) ∧
  ∀ (s : State) (x y : Int), s.cfg.wf → InCell s.cfg x → InCell s.cfg y →
    aluMul x y s = toCell (x * y) s ∧ aluMul x y s = aluMul y x s ∧ aluMul x 0 s = .ok 0 s ∧ aluMul x 1 s = .ok x s ∧
    (x ≠ cellMin s.cfg.xlen → aluMul x (-1) s = .ok (-x) s) ∧
    (s.cfg.overflow = .fault → aluMul (cellMin s.cfg.xlen) (-1) s = .raised (s.raise .arithmeticOverflow)) ∧
    (s.cfg.overflow = .wrap → aluMul (cellMin s.cfg.xlen) (-1) s = .ok (cellMin s.cfg.xlen) s) ∧
    (InCell s.cfg (x * y) → aluMul x y s = .ok (x * y) s) ∧
    (¬ InCell s.cfg (x * y) → s.cfg.overflow = .fault → aluMul x y s = .raised (s.raise .arithmeticOverflow)) ∧
    (¬ InCell s.cfg (x * y) → s.cfg.overflow = .wrap →
      ∃ r, aluMul x y s = .ok r s ∧ InCell s.cfg r ∧ ((2 ^ s.cfg.xlen : Nat) : Int) ∣ x * y - r)

/-- R76: the comparisons never overflow and never raise: `alu_lt` is 1 if `x < y` as signed integers, else 0; `alu_eq` is
1 if `x = y`, else 0; the results 1 and 0 are cells; the zero test is on the whole cell. -/
def Obligations.ComparisonsAreSignedAndTotal : Prop :=
  (∀ c : Config, c.wf → InCell c 1 ∧ InCell c 0) ∧
  ∀ x y : Int, (x < y → aluLt x y = 1) ∧ (y ≤ x → aluLt x y = 0) ∧ (x = y → aluEq x y = 1) ∧ (x ≠ y → aluEq x y = 0) ∧
    (isNonZero x = true ↔ x ≠ 0)

/-! ## The addressing modes -/

/-- R58: `ReadOperand(k)` in each mode: position reads the cell the raw word addresses; immediate is the raw word;
relative reads the cell `raw + rel_base` addresses, the sum an `alu_add`; any other mode, and mode 2 without `REL_EN`,
raises `InvalidParameterMode` before the raw word is read. -/
def Obligations.ReadOperandSelectsByMode : Prop :=
  ∀ (s : State) (k : Nat),
    (s.ip + k < s.cfg.addrLimit →
      readOperand k .immediate s = .ok (s.mem.cell (s.ip + k)) (s.growTo (s.ip + k + 1)) ∧
      readOperand k .position s = memRead (s.mem.cell (s.ip + k)) (s.growTo (s.ip + k + 1)) ∧
      (s.cfg.relEn = true → ∀ a, aluAdd (s.mem.cell (s.ip + k)) s.relBase s = .ok a s →
        readOperand k .relative s = memRead a (s.growTo (s.ip + k + 1))) ∧
      (s.cfg.relEn = true → ∀ u, aluAdd (s.mem.cell (s.ip + k)) s.relBase s = .raised u →
        readOperand k .relative s = .raised ((s.growTo (s.ip + k + 1)).raise .arithmeticOverflow))) ∧
    (s.cfg.addrLimit ≤ s.ip + k →
      readOperand k .immediate s = .raised (s.raise .addressOutOfRange) ∧
      readOperand k .position s = .raised (s.raise .addressOutOfRange) ∧
      (s.cfg.relEn = true → readOperand k .relative s = .raised (s.raise .addressOutOfRange))) ∧
    (s.cfg.relEn = false → readOperand k .relative s = .raised (s.raise .invalidParameterMode)) ∧
    ∀ d, readOperand k (.invalid d) s = .raised (s.raise .invalidParameterMode)

/-- R60, R61: `WriteAddr(k)` in each mode: the address is the raw word, or `raw + rel_base`, checked but neither read nor
grown to; mode 1 and every other mode raises `InvalidParameterMode` before the raw word is read. -/
def Obligations.WriteAddrSelectsByMode : Prop :=
  ∀ (s : State) (k : Nat),
    (s.ip + k < s.cfg.addrLimit →
      writeAddr k .position s = checkAddr (s.mem.cell (s.ip + k)) (s.growTo (s.ip + k + 1)) ∧
      (s.cfg.relEn = true → ∀ a, aluAdd (s.mem.cell (s.ip + k)) s.relBase s = .ok a s →
        writeAddr k .relative s = checkAddr a (s.growTo (s.ip + k + 1))) ∧
      (s.cfg.relEn = true → ∀ u, aluAdd (s.mem.cell (s.ip + k)) s.relBase s = .raised u →
        writeAddr k .relative s = .raised ((s.growTo (s.ip + k + 1)).raise .arithmeticOverflow))) ∧
    (s.cfg.addrLimit ≤ s.ip + k →
      writeAddr k .position s = .raised (s.raise .addressOutOfRange) ∧
      (s.cfg.relEn = true → writeAddr k .relative s = .raised (s.raise .addressOutOfRange))) ∧
    (s.cfg.relEn = false → writeAddr k .relative s = .raised (s.raise .invalidParameterMode)) ∧
    writeAddr k .immediate s = .raised (s.raise .invalidParameterMode) ∧
    ∀ d, writeAddr k (.invalid d) s = .raised (s.raise .invalidParameterMode)

/-- R32, R37, R38: `CheckAddr`: below 0 `NegativeAddress`, at or above `ADDR_LIMIT` `AddressOutOfRange`, and the fault
changes nothing else; any other address is legal. -/
def Obligations.CheckAddrRefusesIllegalAddresses : Prop :=
  ∀ (s : State) (a : Int),
    (a < 0 → checkAddr a s = .raised { s with run := .failed, err := some .negativeAddress }) ∧
    ((s.cfg.addrLimit : Int) ≤ a → checkAddr a s = .raised { s with run := .failed, err := some .addressOutOfRange }) ∧
    (0 ≤ a → a < (s.cfg.addrLimit : Int) → ∃ n : Nat, (n : Int) = a ∧ checkAddr a s = .ok n s)

/-! ## The instructions -/

/-- R78: ADD. A word ending in 01 is ADD with the modes of digits 2, 3, 4.  Where its parameters resolve and the sum is a
cell, `mem[dst] = a + b` with the operands read before the write, and `ip` advances by 4; otherwise it ends in its first
fault, with nothing written and `ip` unchanged. -/
def Obligations.AddWritesTheSum : Prop :=
  (∀ w : Nat, w % 100 = 1 → decode w = .add (modeOf w 1) (modeOf w 2) (modeOf w 3)) ∧
  ∀ (s : State) (m1 m2 m3 : Mode),
    (∀ a b v d, s.source 1 m1 = some a → s.source 2 m2 = some b → s.dest 3 m3 = some d →
      narrow s.cfg (a + b) = some v → exec (.add m1 m2 m3) s = .next (s.afterWrite m1 m2 d v)) ∧
    (∀ e, s.threeFault (fun a b => narrow s.cfg (a + b)) m1 m2 m3 = some e →
      ∃ t, exec (.add m1 m2 m3) s = .next t ∧ FaultedWith e s t)

/-- R79: MUL. As ADD, with the product. -/
def Obligations.MulWritesTheProduct : Prop :=
  (∀ w : Nat, w % 100 = 2 → decode w = .mul (modeOf w 1) (modeOf w 2) (modeOf w 3)) ∧
  ∀ (s : State) (m1 m2 m3 : Mode),
    (∀ a b v d, s.source 1 m1 = some a → s.source 2 m2 = some b → s.dest 3 m3 = some d →
      narrow s.cfg (a * b) = some v → exec (.mul m1 m2 m3) s = .next (s.afterWrite m1 m2 d v)) ∧
    (∀ e, s.threeFault (fun a b => narrow s.cfg (a * b)) m1 m2 m3 = some e →
      ∃ t, exec (.mul m1 m2 m3) s = .next t ∧ FaultedWith e s t)

/-- R98: LESS-THAN. `mem[dst]` is 1 if `a < b` as signed cells, else 0; the comparison itself never faults. -/
def Obligations.LessThanWritesTheTruth : Prop :=
  (∀ w : Nat, w % 100 = 7 → decode w = .lessThan (modeOf w 1) (modeOf w 2) (modeOf w 3)) ∧
  ∀ (s : State) (m1 m2 m3 : Mode),
    (∀ a b d, s.source 1 m1 = some a → s.source 2 m2 = some b → s.dest 3 m3 = some d →
      exec (.lessThan m1 m2 m3) s = .next (s.afterWrite m1 m2 d (if a < b then 1 else 0))) ∧
    (∀ e, s.threeFault (fun _ _ => some 0) m1 m2 m3 = some e →
      ∃ t, exec (.lessThan m1 m2 m3) s = .next t ∧ FaultedWith e s t)

/-- R99: EQUALS. `mem[dst]` is 1 if `a = b`, else 0; the comparison itself never faults. -/
def Obligations.EqualsWritesTheTruth : Prop :=
  (∀ w : Nat, w % 100 = 8 → decode w = .equals (modeOf w 1) (modeOf w 2) (modeOf w 3)) ∧
  ∀ (s : State) (m1 m2 m3 : Mode),
    (∀ a b d, s.source 1 m1 = some a → s.source 2 m2 = some b → s.dest 3 m3 = some d →
      exec (.equals m1 m2 m3) s = .next (s.afterWrite m1 m2 d (if a = b then 1 else 0))) ∧
    (∀ e, s.threeFault (fun _ _ => some 0) m1 m2 m3 = some e →
      ∃ t, exec (.equals m1 m2 m3) s = .next t ∧ FaultedWith e s t)

/-- R91, R92: JUMP-IF-TRUE. Both operands are resolved first, taken or not.  If `a` is not 0, `ip` becomes `b`, or
`NegativeAddress` is raised where `b` is negative; if `a` is 0, `ip` advances by 3 and `b` may be anything. -/
def Obligations.JumpIfTrueJumps : Prop :=
  (∀ w : Nat, w % 100 = 5 → decode w = .jumpIfTrue (modeOf w 1) (modeOf w 2)) ∧
  ∀ (s : State) (m1 m2 : Mode),
    (∀ a b, s.source 1 m1 = some a → s.source 2 m2 = some b →
      (a ≠ 0 → 0 ≤ b → exec (.jumpIfTrue m1 m2) s = .next { s with
        ip := b.toNat, mem := s.mem.growTo (max (s.reach 1 m1) (s.reach 2 m2)) }) ∧
      (a ≠ 0 → b < 0 → ∃ t, exec (.jumpIfTrue m1 m2) s = .next t ∧ FaultedWith .negativeAddress s t) ∧
      (a = 0 → exec (.jumpIfTrue m1 m2) s = .next { s with
        ip := s.ip + 3, mem := s.mem.growTo (max (s.reach 1 m1) (s.reach 2 m2)) })) ∧
    (∀ e, s.twoFault m1 m2 = some e → ∃ t, exec (.jumpIfTrue m1 m2) s = .next t ∧ FaultedWith e s t)

/-- R91, R93: JUMP-IF-FALSE. As JUMP-IF-TRUE with the condition reversed. -/
def Obligations.JumpIfFalseJumps : Prop :=
  (∀ w : Nat, w % 100 = 6 → decode w = .jumpIfFalse (modeOf w 1) (modeOf w 2)) ∧
  ∀ (s : State) (m1 m2 : Mode),
    (∀ a b, s.source 1 m1 = some a → s.source 2 m2 = some b →
      (a = 0 → 0 ≤ b → exec (.jumpIfFalse m1 m2) s = .next { s with
        ip := b.toNat, mem := s.mem.growTo (max (s.reach 1 m1) (s.reach 2 m2)) }) ∧
      (a = 0 → b < 0 → ∃ t, exec (.jumpIfFalse m1 m2) s = .next t ∧ FaultedWith .negativeAddress s t) ∧
      (a ≠ 0 → exec (.jumpIfFalse m1 m2) s = .next { s with
        ip := s.ip + 3, mem := s.mem.growTo (max (s.reach 1 m1) (s.reach 2 m2)) })) ∧
    (∀ e, s.twoFault m1 m2 = some e → ∃ t, exec (.jumpIfFalse m1 m2) s = .next t ∧ FaultedWith e s t)

/-- R94: where a jump leads, for both jumps, every form of their operands and every value.  Taken: a target at or above
`ADDR_LIMIT` is written to `ip` and the next fetch raises `AddressOutOfRange` there; one at or beyond `mem_len` but below
the limit is written to `ip` and the next fetch grows the tape, reads 0 and raises `InvalidOpCode`; any below the limit is
executed next, in the middle of another instruction or not; and a negative target raises in the jump itself, with `ip`
still at the jump.  Not taken: any `b`, negative or not, is harmless. -/
def Obligations.JumpTargetIsCheckedWhereItIsUsed : Prop :=
  ∀ (s : State) (m1 m2 : Mode) (i : Instr) (a b : Int), i ∈ [.jumpIfTrue m1 m2, .jumpIfFalse m1 m2] → s.mem.wf →
    s.run = .running → s.source 1 m1 = some a → s.source 2 m2 = some b →
    (JumpTaken i m1 m2 a →
      (b < 0 → ∃ t, exec i s = .next t ∧ t.run = .failed ∧ t.err = some .negativeAddress ∧ t.ip = s.ip) ∧
      (0 ≤ b → ∃ t, exec i s = .next t ∧ (t.ip : Int) = b ∧
        ((s.cfg.addrLimit : Int) ≤ b → step t = .next (t.raise .addressOutOfRange)) ∧
        (b < (s.cfg.addrLimit : Int) → (t.mem.len : Int) ≤ b →
          step t = .next ((t.growTo (t.ip + 1)).raise .invalidOpCode)) ∧
        (b < (s.cfg.addrLimit : Int) → step t = exec (decode (s.mem.cell b.toNat)) (t.growTo (t.ip + 1))))) ∧
    (¬ JumpTaken i m1 m2 a → ∃ t, exec i s = .next t ∧ t.ip = s.ip + 3 ∧ t.run = .running)

/-- R102, R103: ADJUST-RELATIVE-BASE, when `REL_EN`: `rel_base` becomes the narrowed sum of its old value and `a`, the
operand read with the old `rel_base`, and `ip` advances by 2; a sum that does not narrow raises `ArithmeticOverflow`
with `rel_base` and `ip` unchanged. -/
def Obligations.AdjustRelBaseAdds : Prop :=
  (∀ w : Nat, w % 100 = 9 → decode w = .adjustRelBase (modeOf w 1)) ∧
  ∀ (s : State) (m1 : Mode), s.cfg.relEn = true →
    (∀ a v, s.source 1 m1 = some a → narrow s.cfg (s.relBase + a) = some v →
      exec (.adjustRelBase m1) s = .next { s with
        relBase := v, ip := s.ip + 2, mem := s.mem.growTo (s.reach 1 m1) }) ∧
    (∀ a, s.source 1 m1 = some a → narrow s.cfg (s.relBase + a) = none →
      ∃ t, exec (.adjustRelBase m1) s = .next t ∧ FaultedWith .arithmeticOverflow s t) ∧
    (∀ e, s.sourceFault 1 m1 = some e → ∃ t, exec (.adjustRelBase m1) s = .next t ∧ FaultedWith e s t)

/-- R9, R104: this hardware takes `REL_EN = true`; with `REL_EN = false` mode digit 2 raises `InvalidParameterMode`, opcode
9 raises `InvalidOpCode`, and no instruction changes `rel_base`. -/
def Obligations.WithoutRelEnNothingIsRelative : Prop :=
  State.reset.cfg.relEn = true ∧
  ∀ s : State, s.cfg.relEn = false →
    (∀ k, readOperand k .relative s = .raised (s.raise .invalidParameterMode) ∧
      writeAddr k .relative s = .raised (s.raise .invalidParameterMode)) ∧
    (∀ m, exec (.adjustRelBase m) s = .next (s.raise .invalidOpCode)) ∧
    (∀ (w : Nat), w % 100 = 9 → s.run = .running → s.ip < s.cfg.addrLimit → s.mem.cell s.ip = (w : Int) →
      step s = .next ((s.growTo (s.ip + 1)).raise .invalidOpCode)) ∧
    (∀ i t, exec i s = .next t → t.relBase = s.relBase)

/-- R86: INPUT. The destination, the raw word of parameter 1, is checked first, and a bad one consumes no input.  Then the
port's answer: a value, which is a cell, is stored and `ip` advances by 2; `Exhausted` raises `MissingInput` with no input
consumed, `TransportError` `IOTransportFailure`, `ParseError` `IOParseFailure`, with nothing written and `ip` unchanged
(what is left of the source after these two is not said here).  R82: a waiting value that is no cell is the transport's
`ParseError`. -/
def Obligations.InputStoresTheAnswer : Prop :=
  (∀ w : Nat, w % 100 = 3 → decode w = .input) ∧
  ∀ s : State,
    (∀ d, s.inputDest = some d →
      (∀ v rest, s.inputs = .value v :: rest → InCell s.cfg v → exec .input s = .next { s with
        ip := s.ip + 2, inputs := rest, mem := (s.mem.growTo (s.ip + 2)).store d v }) ∧
      (∀ v rest, s.inputs = .value v :: rest → ¬ InCell s.cfg v →
        ∃ t left, exec .input s = .next t ∧ FaultedWith .ioParseFailure { s with inputs := left } t) ∧
      (∀ rest, s.inputs = .exhausted :: rest →
        ∃ t, exec .input s = .next t ∧ FaultedWith .missingInput s t) ∧
      (∀ rest, s.inputs = .transportError :: rest →
        ∃ t left, exec .input s = .next t ∧ FaultedWith .ioTransportFailure { s with inputs := left } t) ∧
      (∀ rest, s.inputs = .parseError :: rest →
        ∃ t left, exec .input s = .next t ∧ FaultedWith .ioParseFailure { s with inputs := left } t)) ∧
    (∀ e, s.destFault 1 .position = some e → ∃ t, exec .input s = .next t ∧ FaultedWith e s t)

/-- R83: while the port has not answered, the engine is held inside INPUT: `run` stays `RUNNING`, no state changes, and
nothing else executes; the answer, each of the four of R82, lifts the hold: a value is stored, and `Exhausted`,
`TransportError`, `ParseError` and a value that is no cell end the instruction in their fault.  (That an empty `inputs` is
the silent port, and that the hold is a step to the same state, are the model's choices, log entries 6 and 7.) -/
def Obligations.InputHoldsUntilTheAnswer : Prop :=
  ∀ (s : State) (d : Nat), s.Inv → s.run = .running → s.ip < s.cfg.addrLimit → decode (s.mem.cell s.ip) = .input →
    s.inputDest = some d → s.inputs = [] →
    step s = .next s ∧
    (∀ v, InCell s.cfg v → step (s.answer (.value v)) = .next { s with
      ip := s.ip + 2, mem := (s.mem.growTo (s.ip + 2)).store d v }) ∧
    (∃ t, step (s.answer .exhausted) = .next t ∧ FaultedWith .missingInput (s.answer .exhausted) t) ∧
    (∃ t left, step (s.answer .transportError) = .next t ∧
      FaultedWith .ioTransportFailure { s with inputs := left } t) ∧
    (∀ a, a = .parseError ∨ (∃ v, a = .value v ∧ ¬ InCell s.cfg v) →
      ∃ t left, step (s.answer a) = .next t ∧ FaultedWith .ioParseFailure { s with inputs := left } t)

/-- R87: INPUT ignores its mode digit: every word ending in 03, whatever its other digits, stores the value, a cell (R82), at
the address `Raw(1)`; no digit makes it add `rel_base` or fault. -/
def Obligations.InputIgnoresItsModeDigit : Prop :=
  ∀ (s : State) (w d : Nat) (v : Int) (rest : List InAnswer), s.run = .running → s.mem.cell s.ip = (w : Int) →
    w % 100 = 3 → s.ip + 1 < s.cfg.addrLimit → s.mem.cell (s.ip + 1) = (d : Int) → d < s.cfg.addrLimit →
    s.inputs = .value v :: rest → InCell s.cfg v →
    step s = .next { s with ip := s.ip + 2, inputs := rest, mem := (s.mem.growTo (s.ip + 2)).store d v }

/-- R84, R88, and U7: OUTPUT. The operand's value is delivered exactly: on `Accepted` it is appended to the record and
`ip` advances by 2; on `TransportError` the engine raises `IOTransportFailure`, and the record holds the value or not, as
the environment's bit `b` says (log entry 9), for either value of it; past the end of `sink` every value is accepted (log
entry 9). -/
def Obligations.OutputDeliversTheValue : Prop :=
  (∀ w : Nat, w % 100 = 4 → decode w = .output (modeOf w 1)) ∧
  ∀ (s : State) (m1 : Mode),
    (∀ a, s.source 1 m1 = some a →
      (s.sink = [] → exec (.output m1) s = .next { s with
        ip := s.ip + 2, outputs := s.outputs ++ [a], mem := s.mem.growTo (s.reach 1 m1) }) ∧
      (∀ rest, s.sink = .accepted :: rest → exec (.output m1) s = .next { s with
        ip := s.ip + 2, outputs := s.outputs ++ [a], sink := rest, mem := s.mem.growTo (s.reach 1 m1) }) ∧
      (∀ rest b, s.sink = .transportError b :: rest → exec (.output m1) s = .next { s with
        run := .failed, err := some .ioTransportFailure, sink := rest, mem := s.mem.growTo (s.reach 1 m1),
        outputs := if b then s.outputs ++ [a] else s.outputs })) ∧
    (∀ e, s.sourceFault 1 m1 = some e → ∃ t, exec (.output m1) s = .next t ∧ FaultedWith e s t)

/-- R105, R106, R107: HALT: any non-negative word ending in 99; it sets `run` to HALTED and changes nothing else: `ip`
keeps its address, `err` stays, memory and ports are untouched. -/
def Obligations.HaltHalts : Prop :=
  (∀ w : Nat, w % 100 = 99 → decode w = .halt) ∧ ∀ s : State, exec .halt s = .next { s with run := .halted }

/-- R108: a word whose opcode value is none of the ten raises `InvalidOpCode`: nothing is read beyond the fetch, nothing
is written, `ip` is unchanged; the mode digits are not looked at. -/
def Obligations.OtherOpcodesRaiseInvalidOpCode : Prop :=
  (∀ w : Nat, w % 100 = 0 ∨ (10 ≤ w % 100 ∧ w % 100 ≤ 98) → decode w = .illegalOpcode (w % 100)) ∧
  (∀ (s : State) (op : Nat), exec (.illegalOpcode op) s = .next (s.raise .invalidOpCode)) ∧
  ∀ (s : State) (w : Nat), s.run = .running → s.ip < s.cfg.addrLimit → s.mem.cell s.ip = (w : Int) →
    (w % 100 = 0 ∨ (10 ≤ w % 100 ∧ w % 100 ≤ 98) ∨ (w % 100 = 9 ∧ s.cfg.relEn = false)) →
    step s = .next ((s.growTo (s.ip + 1)).raise .invalidOpCode)

/-- R49: a negative instruction word raises `InvalidOpCode` and decodes nothing. -/
def Obligations.NegativeWordRaisesInvalidOpCode : Prop :=
  (∀ w : Int, w < 0 → decode w = .negativeWord w) ∧
  (∀ (s : State) (w : Int), exec (.negativeWord w) s = .next (s.raise .invalidOpCode)) ∧
  ∀ s : State, s.run = .running → s.ip < s.cfg.addrLimit → s.mem.cell s.ip < 0 →
    step s = .next ((s.growTo (s.ip + 1)).raise .invalidOpCode)

/-! ## Frames -/

/-- R30, R35, R46: what ADD, MUL, LESS-THAN and EQUALS leave unchanged, complete or faulting: the parameters, `rel_base`,
the ports; `run` and `err` unless the instruction faults; every cell but the one at the address the instruction computes
for its store, and every cell where it faults before it has one. -/
def Obligations.ThreeOperandFrame : Prop :=
  ∀ (s t : State) (m1 m2 m3 : Mode) (i : Instr),
    i ∈ [.add m1 m2 m3, .mul m1 m2 m3, .lessThan m1 m2 m3, .equals m1 m2 m3] → exec i s = .next t →
    t.cfg = s.cfg ∧ t.relBase = s.relBase ∧ t.inputs = s.inputs ∧ t.outputs = s.outputs ∧ t.sink = s.sink ∧
    ((t.run = s.run ∧ t.err = s.err) ∨ (t.run = .failed ∧ t.err ≠ none ∧ ∀ x, t.mem.cell x = s.mem.cell x)) ∧
    (∀ d, storeAddress m1 m2 m3 s = some d → ∀ x, x ≠ d → t.mem.cell x = s.mem.cell x) ∧
    (storeAddress m1 m2 m3 s = none → ∀ x, t.mem.cell x = s.mem.cell x)

/-- R30, R35, R86: what INPUT leaves unchanged: the parameters, `rel_base`, the output record and sink; `run` and `err`
unless it faults; every cell but the one at the address it computes for its store. -/
def Obligations.InputFrame : Prop :=
  ∀ s t : State, exec .input s = .next t →
    t.cfg = s.cfg ∧ t.relBase = s.relBase ∧ t.outputs = s.outputs ∧ t.sink = s.sink ∧
    ((t.run = s.run ∧ t.err = s.err) ∨ (t.run = .failed ∧ t.err ≠ none ∧ ∀ x, t.mem.cell x = s.mem.cell x)) ∧
    (∀ d, inputStoreAddress s = some d → ∀ x, x ≠ d → t.mem.cell x = s.mem.cell x) ∧
    (inputStoreAddress s = none → t.inputs = s.inputs ∧ ∀ x, t.mem.cell x = s.mem.cell x)

/-- R30, R88: what OUTPUT leaves unchanged: the parameters, `rel_base`, the input source, every cell; `run` and `err`
unless it faults. -/
def Obligations.OutputFrame : Prop :=
  ∀ (s t : State) (m1 : Mode), exec (.output m1) s = .next t →
    t.cfg = s.cfg ∧ t.relBase = s.relBase ∧ t.inputs = s.inputs ∧
    ((t.run = s.run ∧ t.err = s.err) ∨ (t.run = .failed ∧ t.err ≠ none)) ∧ ∀ x, t.mem.cell x = s.mem.cell x

/-- R30, R92, R93, R105, R108, R49: what the jumps, HALT and the illegal words leave unchanged: the parameters,
`rel_base`, the ports, every cell; `run` and `err` unless the instruction faults, but for HALT, which sets `run`. -/
def Obligations.JumpAndHaltFrame : Prop :=
  ∀ (s t : State) (m1 m2 : Mode) (op : Nat) (w : Int) (i : Instr),
    i ∈ [.jumpIfTrue m1 m2, .jumpIfFalse m1 m2, .halt, .illegalOpcode op, .negativeWord w] → exec i s = .next t →
    t.cfg = s.cfg ∧ t.relBase = s.relBase ∧ t.inputs = s.inputs ∧ t.outputs = s.outputs ∧ t.sink = s.sink ∧
    ((t.run = s.run ∧ t.err = s.err) ∨ (t.run = .failed ∧ t.err ≠ none) ∨
      (i = .halt ∧ t.run = .halted ∧ t.err = s.err)) ∧ ∀ x, t.mem.cell x = s.mem.cell x

/-- R30, R102: what ADJUST-RELATIVE-BASE leaves unchanged: the parameters, the ports, every cell; `run` and `err` unless
it faults, and then `rel_base` and `ip` too. -/
def Obligations.AdjustRelBaseFrame : Prop :=
  ∀ (s t : State) (m1 : Mode), exec (.adjustRelBase m1) s = .next t →
    t.cfg = s.cfg ∧ t.inputs = s.inputs ∧ t.outputs = s.outputs ∧ t.sink = s.sink ∧
    ((t.run = s.run ∧ t.err = s.err) ∨ (t.run = .failed ∧ t.err ≠ none ∧ t.relBase = s.relBase ∧ t.ip = s.ip)) ∧
    ∀ x, t.mem.cell x = s.mem.cell x

/-! ## Faults -/

/-- R116, R117: faults are precise: a step of a running engine that ends in FAILED leaves `ip`, `rel_base`, the parameters
and every cell as they were and the tape no shorter; the input source but for a port answer of `TransportError` or
`ParseError` to an INPUT; the output record and sink but for an OUTPUT the port rejected; and it records a kind. -/
def Obligations.FaultsArePrecise : Prop :=
  ∀ s t : State, s.run = .running → step s = .next t → t.run = .failed →
    t.err ≠ none ∧ t.ip = s.ip ∧ t.relBase = s.relBase ∧ t.cfg = s.cfg ∧ t.mem.cells = s.mem.cells ∧
    s.mem.len ≤ t.mem.len ∧
    (t.inputs = s.inputs ∨ (decode (s.mem.cell s.ip) = .input ∧
      (t.err = some .ioTransportFailure ∨ t.err = some .ioParseFailure))) ∧
    ((t.outputs = s.outputs ∧ t.sink = s.sink) ∨
      ((∃ m, decode (s.mem.cell s.ip) = .output m) ∧ t.err = some .ioTransportFailure))

/-- R111, R112, R113, R114: which instruction can raise which kind, and from what.  `InvalidOpCode`: the illegal words, and
opcode 9 without `REL_EN`, which raises nothing else.  `InvalidParameterMode`: a source with a refused digit (3 to 9, 2
without `REL_EN`), a destination with a refused digit or 1; never INPUT, HALT or an illegal word.  `MissingInput` and
`IOParseFailure`: INPUT from the port's answer; `IOTransportFailure`: INPUT or OUTPUT from the port's answer.
`NegativeAddress`: a parameter in mode 0 or 2, INPUT, or a taken jump to a negative target.  `AddressOutOfRange`: any
instruction that has a parameter (the fetch, which comes before, raises it too: FetchBeyondTheLimitFaults); never HALT or
an illegal word.  `ArithmeticOverflow`: ADD, MUL, ADJUST-RELATIVE-BASE, or a parameter in mode 2, only under `FAULT`. -/
def Obligations.WhichInstructionRaisesWhichFault : Prop :=
  ∀ (s t : State) (i : Instr), s.run = .running → exec i s = .next t → t.run = .failed →
    (t.err = some .invalidOpCode ↔ (∃ op, i = .illegalOpcode op) ∨ (∃ w, i = .negativeWord w) ∨
      ((∃ m, i = .adjustRelBase m) ∧ s.cfg.relEn = false)) ∧
    (t.err = some .invalidParameterMode →
      (∃ m ∈ sourceModes i, RefusedMode s.cfg m) ∨
      (∃ m, destMode i = some m ∧ (m = .immediate ∨ RefusedMode s.cfg m))) ∧
    (t.err = some .missingInput → i = .input ∧ ∃ rest, s.inputs = .exhausted :: rest) ∧
    (t.err = some .ioParseFailure → i = .input ∧ ∃ a rest, s.inputs = a :: rest ∧ a.delivered s.cfg = .parseError) ∧
    (t.err = some .ioTransportFailure → (i = .input ∧ ∃ rest, s.inputs = .transportError :: rest) ∨
      ((∃ m, i = .output m) ∧ ∃ b rest, s.sink = .transportError b :: rest)) ∧
    (t.err = some .negativeAddress → .position ∈ paramModes i ∨ (.relative ∈ paramModes i ∧ s.cfg.relEn = true) ∨
      i = .input ∨ ∃ m1 m2 a b, s.source 1 m1 = some a ∧ s.source 2 m2 = some b ∧ b < 0 ∧
        JumpTaken i m1 m2 a) ∧
    (t.err = some .addressOutOfRange → i = .input ∨ sourceModes i ≠ []) ∧
    (t.err = some .arithmeticOverflow → s.cfg.overflow = .fault ∧
      ((∃ m1 m2 m3, i = .add m1 m2 m3 ∨ i = .mul m1 m2 m3) ∨ (∃ m, i = .adjustRelBase m) ∨
        (.relative ∈ paramModes i ∧ s.cfg.relEn = true)))

/-! ## The whole machine -/

/-- R17: `rel_base` is "mutated only by the adjust-relative-base opcode". -/
def Obligations.OnlyAdjustRelBaseChangesRelBase : Prop :=
  ∀ s t : State, step s = .next t → t.relBase ≠ s.relBase → ∃ m, decode (s.mem.cell s.ip) = .adjustRelBase m

/-- R105, R139: HALT is the only way a run ends without a fault: a step ends in HALTED exactly when it fetched a HALT
word. -/
def Obligations.OnlyHaltEndsARunWell : Prop :=
  ∀ s t : State, step s = .next t →
    (t.run = .halted ↔ s.ip < s.cfg.addrLimit ∧ decode (s.mem.cell s.ip) = .halt)

/-- R81, R89: I/O happens only through opcodes 3 and 4: no other instruction consumes an input or touches the record; an
OUTPUT appends at most one cell and alters none; an INPUT takes at most the first waiting answer (log entry 8 for the failing ones). -/
def Obligations.OnlyInputAndOutputUseThePorts : Prop :=
  ∀ s t : State, step s = .next t →
    (t.inputs = s.inputs ∨ (decode (s.mem.cell s.ip) = .input ∧ t.inputs = s.inputs.tail)) ∧
    (t.outputs = s.outputs ∨ ((∃ m, decode (s.mem.cell s.ip) = .output m) ∧ ∃ v, t.outputs = s.outputs ++ [v])) ∧
    (t.sink = s.sink ∨ ((∃ m, decode (s.mem.cell s.ip) = .output m) ∧ t.sink = s.sink.tail))

/-- R28, R29 (f), R33: the parameters are constant over a run, and the tape never shrinks and never grows beyond
`ADDR_LIMIT`. -/
def Obligations.StepKeepsParametersAndNeverShrinksTheTape : Prop :=
  ∀ s t : State, step s = .next t →
    t.cfg = s.cfg ∧ s.mem.len ≤ t.mem.len ∧ t.mem.len ≤ max s.mem.len s.cfg.addrLimit

/-- R25 (a): a program cannot observe `mem_len`: from two states that differ in nothing but the length of the tape, a step
has the same outcome, and the next states differ in nothing but the length. -/
def Obligations.TapeLengthIsInvisibleToThePrograms : Prop :=
  ∀ (s : State) (n : Nat),
    (∀ t, step s = .next t →
      ∃ k, step { s with mem := { s.mem with len := n } } = .next { t with mem := { t.mem with len := k } }) ∧
    (∀ f, step s = .fault f → step { s with mem := { s.mem with len := n } } = .fault f)

/-- R45, R143: a store is seen by the very next fetch: an ADD that writes its sum into the cell after its own four is
followed by the execution of the word it wrote. -/
def Obligations.StoreIsSeenByTheNextFetch : Prop :=
  ∀ (s : State) (m1 m2 m3 : Mode) (a b v : Int), s.run = .running → s.source 1 m1 = some a → s.source 2 m2 = some b →
    s.dest 3 m3 = some (s.ip + 4) → narrow s.cfg (a + b) = some v →
    ∃ t, exec (.add m1 m2 m3) s = .next t ∧ t.mem.cell (s.ip + 4) = v ∧ step t = exec (decode v) t

/-! ## The invariant -/

/-- R29: the engine keeps its invariant: `mem_len <= ADDR_LIMIT`, zero beyond it, every cell and `rel_base` in range,
`ip < 2^XLEN`, `err = NONE` exactly when not FAILED, with the tape canonical and the port data in range. -/
def Obligations.StepKeepsTheInvariant : Prop :=
  ∀ s t : State, s.Inv → step s = .next t → t.Inv

/-- R27, R29: the state after reset meets the invariant.  Its tape, input source, output record and sink are the model's
choice (log entry 10), and so the clauses of the invariant about them say something of that choice here. -/
def Obligations.ResetMeetsTheInvariant : Prop :=
  State.reset.Inv

/-- R29, R137: "In every reachable state": from any legal launch, every state reached by steps of the engine and answers of
the input port (R83) meets the invariant. -/
def Obligations.EveryReachableStateMeetsTheInvariant : Prop :=
  ∀ (l : Launch) (s t : State), State.launch l = some s → Reaches s t → t.Inv

/-! ## Reset and launch -/

/-- R132, R133, R134: reset sets `ip` and `rel_base` to 0, `run` to RUNNING and `err` to NONE, touches nothing else, and
cannot be applied during a run. -/
def Obligations.ResetSetsFourRegisters : Prop :=
  ∀ s : State,
    s.start = ⟨s.cfg, 0, 0, .running, none, s.mem, s.inputs, s.outputs, s.sink⟩ ∧
    (s.run = .running → s.restart = none) ∧ (s.ended → s.restart = some s.start)

/-- R27: the values of State.reset that the spec gives: `ip = 0`, `rel_base = 0`, `run = RUNNING`, `err = NONE`, and the
default parameters (R6 to R9): 64, `2^63`, `FAULT`, true. -/
def Obligations.ResetValuesAreTheSpecs : Prop :=
  State.reset.ip = 0 ∧ State.reset.relBase = 0 ∧ State.reset.run = .running ∧ State.reset.err = none ∧
    State.reset.errCode = 0 ∧ State.reset.cfg.xlen = 64 ∧ State.reset.cfg.addrLimit = 9223372036854775808 ∧
    State.reset.cfg.overflow = .fault ∧ State.reset.cfg.relEn = true

/-- R137: a launch puts the image on the tape, `mem[i] = ci`, `mem_len = n`, all other cells 0, with the ports and the
parameters as given and the registers at their reset values.  It is refused when the image is longer than `ADDR_LIMIT`, or
a cell of the image, a value of the input source or a cell of the record is out of the cell range (U14), or a parameter is
not one of the settings that the model takes as legal: `XLEN` 32 or at least 64, `1 <= ADDR_LIMIT <= 2^(XLEN-1)` (the
model's own reading of R6 and R7, log entry 22). -/
def Obligations.LaunchLoadsTheImage : Prop :=
  ∀ l : Launch,
    (l.ok → ∃ s, State.launch l = some s ∧ (∀ i, s.mem.cell i = l.image.getD i 0) ∧ s.mem.len = l.image.length ∧
      s.cfg = l.cfg ∧ s.inputs = l.inputs ∧ s.outputs = l.outputs ∧ s.sink = l.sink ∧
      s.ip = 0 ∧ s.relBase = 0 ∧ s.run = .running ∧ s.err = none) ∧
    (¬ l.ok → State.launch l = none)

/-! ## The input port -/

/-- R82: what `PortIn` returns, in every state.  It answers exactly when an answer waits; it returns the first one, and
each of the four kinds unchanged; a value that is no cell is the transport's `ParseError`, so "`PortIn` never returns a
value outside the cell range"; a value is consumed, so that the next call gets the next answer; nothing but the source
changes.  And the environment's answer, whichever it is, keeps the invariant.  (The list form of the source is log entry
7.) -/
def Obligations.PortInReturnsOnlyCells : Prop :=
  ∀ s : State,
    (portIn s = none ↔ s.inputs = []) ∧
    (∀ a t, portIn s = some (a, t) → a.inRange s.cfg = true ∧ { t with inputs := s.inputs } = s) ∧
    (∀ v rest, s.inputs = .value v :: rest → InCell s.cfg v →
      portIn s = some (.value v, { s with inputs := rest })) ∧
    (∀ v rest, s.inputs = .value v :: rest → ¬ InCell s.cfg v → ∃ t, portIn s = some (.parseError, t)) ∧
    (∀ rest, s.inputs = .exhausted :: rest → portIn s = some (.exhausted, s)) ∧
    (∀ rest, s.inputs = .transportError :: rest → ∃ t, portIn s = some (.transportError, t)) ∧
    (∀ rest, s.inputs = .parseError :: rest → ∃ t, portIn s = some (.parseError, t)) ∧
    ∀ a, s.Inv → (s.answer a).Inv
end

