-- ==== Sys2Proof/Laws/Decode.lean ====
section
/-! SUPPORT. Laws of Decode: modes and their digits, the decoder on natural numbers, and the digits of an encoded
word. -/

namespace Sys2Proof

theorem Mode.ofDigit_digit {m : Mode} (h : m.wf = true) : Mode.ofDigit m.digit = m := by
  cases m with
  | invalid d =>
    simp only [Mode.wf, decide_eq_true_eq] at h
    obtain ⟨h1, h2⟩ := h
    interval_cases d <;> rfl
  | position => rfl
  | immediate => rfl
  | relative => rfl

theorem Mode.digit_ofDigit (d : Nat) : (Mode.ofDigit d).digit = d := by
  unfold Mode.ofDigit
  split <;> rfl

theorem Mode.digit_le {m : Mode} (h : m.wf = true) : m.digit ≤ 9 := by
  cases m <;> simp_all [Mode.wf, Mode.digit]

theorem Mode.ofDigit_wf {d : Nat} (h : d ≤ 9) : (Mode.ofDigit d).wf = true := by
  interval_cases d <;> rfl

/-- A mode the decoder reads is well-formed. -/
theorem modeOf_wf (w k : Nat) : (modeOf w k).wf = true :=
  Mode.ofDigit_wf (by unfold digit; omega)

/-- The decoder on a word that is not negative. -/
theorem decode_nat (w : Nat) :
    decode (w : Int) = match w % 100 with
      | 1 => .add (modeOf w 1) (modeOf w 2) (modeOf w 3)
      | 2 => .mul (modeOf w 1) (modeOf w 2) (modeOf w 3)
      | 3 => .input
      | 4 => .output (modeOf w 1)
      | 5 => .jumpIfTrue (modeOf w 1) (modeOf w 2)
      | 6 => .jumpIfFalse (modeOf w 1) (modeOf w 2)
      | 7 => .lessThan (modeOf w 1) (modeOf w 2) (modeOf w 3)
      | 8 => .equals (modeOf w 1) (modeOf w 2) (modeOf w 3)
      | 9 => .adjustRelBase (modeOf w 1)
      | 99 => .halt
      | op => .illegalOpcode op := by
  unfold decode
  rw [if_neg (by omega)]
  rfl

theorem decode_negative {w : Int} (h : w < 0) : decode w = .negativeWord w := by
  simp [decode, h]

/-- The opcode field of a word put together from its digits (R48). -/
theorem opcode_of_digits {op : Nat} (a b c : Nat) (h : op < 100) :
    (op + 100 * a + 1000 * b + 10000 * c) % 100 = op := by omega

theorem mode1_of_digits {op a : Nat} (b c : Nat) (h : op < 100) (ha : a ≤ 9) :
    modeOf (op + 100 * a + 1000 * b + 10000 * c) 1 = Mode.ofDigit a := by
  unfold modeOf digit
  congr 1
  norm_num
  omega

theorem mode2_of_digits {op a b : Nat} (c : Nat) (h : op < 100) (ha : a ≤ 9) (hb : b ≤ 9) :
    modeOf (op + 100 * a + 1000 * b + 10000 * c) 2 = Mode.ofDigit b := by
  unfold modeOf digit
  congr 1
  norm_num
  omega

theorem mode3_of_digits {op a b c : Nat} (h : op < 100) (ha : a ≤ 9) (hb : b ≤ 9) (hc : c ≤ 9) :
    modeOf (op + 100 * a + 1000 * b + 10000 * c) 3 = Mode.ofDigit c := by
  unfold modeOf digit
  congr 1
  norm_num
  omega

end Sys2Proof
end

