-- ==== Sys2Proof/Laws/Memory.lean ====
section
/-! SUPPORT. Laws of Memory: a read after a write, cells left alone, the length, and the canonical form. -/

namespace Sys2Proof.Machine

/-! ## Reading after writing -/

theorem lookupCell_eraseCell_same (l : List (Nat × Int)) (a : Nat) : lookupCell (eraseCell l a) a = 0 := by
  induction l with
  | nil => rfl
  | cons p rest ih =>
    obtain ⟨b, w⟩ := p
    by_cases h : b = a <;> simp_all [eraseCell, lookupCell]

theorem lookupCell_eraseCell_other (l : List (Nat × Int)) {a x : Nat} (h : x ≠ a) :
    lookupCell (eraseCell l a) x = lookupCell l x := by
  induction l with
  | nil => rfl
  | cons p rest ih =>
    obtain ⟨b, w⟩ := p
    by_cases hb : b = a
    · simp_all [eraseCell, lookupCell, Ne.symm h]
    · by_cases hx : b = x <;> simp_all [eraseCell, lookupCell]

theorem lookupCell_insertCell_same (l : List (Nat × Int)) (a : Nat) (v : Int) (h : ∀ p ∈ l, p.1 ≠ a) :
    lookupCell (insertCell l a v) a = v := by
  induction l with
  | nil => simp [insertCell, lookupCell]
  | cons p rest ih =>
    obtain ⟨b, w⟩ := p
    have hb : b ≠ a := h (b, w) (by simp)
    unfold insertCell
    split
    · simp [lookupCell]
    · simpa [lookupCell, hb] using ih fun q hq => h q (by simp [hq])

theorem lookupCell_insertCell_other (l : List (Nat × Int)) {a x : Nat} (v : Int) (h : x ≠ a) :
    lookupCell (insertCell l a v) x = lookupCell l x := by
  induction l with
  | nil => simp [insertCell, lookupCell, Ne.symm h]
  | cons p rest ih =>
    obtain ⟨b, w⟩ := p
    unfold insertCell
    split
    · simp [lookupCell, Ne.symm h]
    · simp [lookupCell, ih]

theorem eraseCell_ne {l : List (Nat × Int)} {a : Nat} : ∀ p ∈ eraseCell l a, p.1 ≠ a := by
  simp [eraseCell]

@[simp] theorem Memory.cell_store_same (m : Memory) (a : Nat) (v : Int) : (m.store a v).cell a = v := by
  unfold Memory.store Memory.cell setCell
  split
  · next h => simp [h, lookupCell_eraseCell_same]
  · exact lookupCell_insertCell_same _ _ _ eraseCell_ne

theorem Memory.cell_store_other (m : Memory) {a x : Nat} (v : Int) (h : x ≠ a) :
    (m.store a v).cell x = m.cell x := by
  unfold Memory.store Memory.cell setCell
  split
  · exact lookupCell_eraseCell_other _ h
  · exact (lookupCell_insertCell_other _ _ h).trans (lookupCell_eraseCell_other _ h)

/-! ## Growing -/

@[simp] theorem Memory.growTo_cells (m : Memory) (n : Nat) : (m.growTo n).cells = m.cells := by
  unfold Memory.growTo; split <;> rfl

@[simp] theorem Memory.growTo_len (m : Memory) (n : Nat) : (m.growTo n).len = max m.len n := by
  unfold Memory.growTo; split <;> simp <;> omega

@[simp] theorem Memory.growTo_cell (m : Memory) (n a : Nat) : (m.growTo n).cell a = m.cell a := by
  simp [Memory.cell]

/-- Growing is nothing but a longer length. -/
theorem Memory.growTo_eq (m : Memory) (n : Nat) : m.growTo n = { m with len := max m.len n } := by
  have h1 := m.growTo_cells n
  have h2 := m.growTo_len n
  cases h : m.growTo n
  simp_all

@[simp] theorem Memory.growTo_growTo (m : Memory) (a b : Nat) : (m.growTo a).growTo b = m.growTo (max a b) := by
  simp [Memory.growTo_eq, Nat.max_assoc]

@[simp] theorem Memory.store_len (m : Memory) (a : Nat) (v : Int) : (m.store a v).len = max m.len (a + 1) := by
  simp [Memory.store]

/-! ## The canonical form -/

theorem mem_eraseCell {l : List (Nat × Int)} {a : Nat} {p : Nat × Int} (h : p ∈ eraseCell l a) : p ∈ l :=
  List.mem_of_mem_filter h

theorem mem_insertCell {l : List (Nat × Int)} {a : Nat} {v : Int} {p : Nat × Int}
    (h : p ∈ insertCell l a v) : p = (a, v) ∨ p ∈ l := by
  induction l with
  | nil => simpa [insertCell] using h
  | cons q rest ih =>
    unfold insertCell at h
    split at h
    · simpa using h
    · rcases List.mem_cons.mp h with rfl | h
      · simp
      · rcases ih h with h | h <;> simp [h]

/-- What a listed cell of a written tape is: the written one, or one that was listed before. -/
theorem mem_setCell {l : List (Nat × Int)} {a : Nat} {v : Int} {p : Nat × Int} (h : p ∈ setCell l a v) :
    (p = (a, v) ∧ v ≠ 0) ∨ p ∈ l := by
  unfold setCell at h
  split at h
  · exact .inr (mem_eraseCell h)
  · next hv => exact (mem_insertCell h).imp (⟨·, hv⟩) mem_eraseCell

theorem insertCell_sorted {l : List (Nat × Int)} {a : Nat} {v : Int}
    (hl : l.Pairwise fun p q => p.1 < q.1) (ha : ∀ p ∈ l, p.1 ≠ a) :
    (insertCell l a v).Pairwise fun p q => p.1 < q.1 := by
  induction l with
  | nil => simp [insertCell]
  | cons q rest ih =>
    obtain ⟨b, w⟩ := q
    have ⟨hb, hrest⟩ := List.pairwise_cons.mp hl
    have hba : b ≠ a := ha (b, w) (by simp)
    unfold insertCell
    split
    · next hlt =>
      refine List.pairwise_cons.mpr ⟨fun p hp => ?_, hl⟩
      rcases List.mem_cons.mp hp with rfl | hp
      · exact hlt
      · exact lt_trans hlt (hb p hp)
    · next hge =>
      refine List.pairwise_cons.mpr ⟨fun p hp => ?_, ih hrest fun p hp => ha p (by simp [hp])⟩
      rcases mem_insertCell hp with rfl | hp
      · exact lt_of_le_of_ne (not_lt.mp hge) hba
      · exact hb p hp

theorem Memory.growTo_wf {m : Memory} (n : Nat) (h : m.wf) : (m.growTo n).wf := by
  refine ⟨by simpa using h.1, fun p hp => ?_⟩
  have := h.2 p (by simpa using hp)
  exact ⟨this.1, by simp; omega⟩

/-- Every write keeps the canonical form. -/
theorem Memory.store_wf {m : Memory} (a : Nat) (v : Int) (h : m.wf) : (m.store a v).wf := by
  have herase : (eraseCell m.cells a).Pairwise fun p q => p.1 < q.1 := h.1.filter _
  refine ⟨?_, fun p hp => ?_⟩
  · show (setCell m.cells a v).Pairwise _
    unfold setCell
    split
    · exact herase
    · exact insertCell_sorted herase eraseCell_ne
  · rcases mem_setCell (show p ∈ setCell m.cells a v from hp) with ⟨rfl, hv⟩ | hp
    · exact ⟨hv, by simp⟩
    · have := h.2 p hp
      exact ⟨this.1, by simp; omega⟩

theorem imageCells_ge {i : Nat} {image : List Int} : ∀ p ∈ imageCells i image, i ≤ p.1 := by
  induction image generalizing i with
  | nil => simp [imageCells]
  | cons c rest ih =>
    intro p hp
    unfold imageCells at hp
    split at hp
    · exact le_trans (Nat.le_succ i) (ih p hp)
    · rcases List.mem_cons.mp hp with rfl | hp
      · exact le_rfl
      · exact le_trans (Nat.le_succ i) (ih p hp)

theorem imageCells_wf (i : Nat) (image : List Int) :
    (imageCells i image).Pairwise (fun p q => p.1 < q.1) ∧
      ∀ p ∈ imageCells i image, p.2 ≠ 0 ∧ p.1 < i + image.length := by
  induction image generalizing i with
  | nil => simp [imageCells]
  | cons c rest ih =>
    have ⟨hs, hb⟩ := ih (i + 1)
    unfold imageCells
    split
    · exact ⟨hs, fun p hp => ⟨(hb p hp).1, by have := (hb p hp).2; simp; omega⟩⟩
    · next hc =>
      refine ⟨List.pairwise_cons.mpr ⟨fun p hp => imageCells_ge p hp, hs⟩, fun p hp => ?_⟩
      rcases List.mem_cons.mp hp with rfl | hp
      · exact ⟨hc, by simp⟩
      · exact ⟨(hb p hp).1, by have := (hb p hp).2; simp; omega⟩

/-- A loaded tape is in canonical form. -/
theorem Memory.ofImage_wf (image : List Int) : (Memory.ofImage image).wf := by
  have := imageCells_wf 0 image
  simpa [Memory.ofImage, Memory.wf] using this

end Sys2Proof.Machine
end

