-- ==== Sys2Proof/Laws/State.lean ====
section
/-! SUPPORT. Laws of State: what each update of the state makes of each field. -/

namespace Sys2Proof.Machine

@[simp] theorem State.raise_cfg (s : State) (k : ErrKind) : (s.raise k).cfg = s.cfg := rfl
@[simp] theorem State.raise_ip (s : State) (k : ErrKind) : (s.raise k).ip = s.ip := rfl
@[simp] theorem State.raise_relBase (s : State) (k : ErrKind) : (s.raise k).relBase = s.relBase := rfl
@[simp] theorem State.raise_run (s : State) (k : ErrKind) : (s.raise k).run = .failed := rfl
@[simp] theorem State.raise_err (s : State) (k : ErrKind) : (s.raise k).err = some k := rfl
@[simp] theorem State.raise_mem (s : State) (k : ErrKind) : (s.raise k).mem = s.mem := rfl
@[simp] theorem State.raise_inputs (s : State) (k : ErrKind) : (s.raise k).inputs = s.inputs := rfl
@[simp] theorem State.raise_outputs (s : State) (k : ErrKind) : (s.raise k).outputs = s.outputs := rfl
@[simp] theorem State.raise_sink (s : State) (k : ErrKind) : (s.raise k).sink = s.sink := rfl

@[simp] theorem State.growTo_cfg (s : State) (n : Nat) : (s.growTo n).cfg = s.cfg := rfl
@[simp] theorem State.growTo_ip (s : State) (n : Nat) : (s.growTo n).ip = s.ip := rfl
@[simp] theorem State.growTo_relBase (s : State) (n : Nat) : (s.growTo n).relBase = s.relBase := rfl
@[simp] theorem State.growTo_run (s : State) (n : Nat) : (s.growTo n).run = s.run := rfl
@[simp] theorem State.growTo_err (s : State) (n : Nat) : (s.growTo n).err = s.err := rfl
@[simp] theorem State.growTo_mem (s : State) (n : Nat) : (s.growTo n).mem = s.mem.growTo n := rfl
@[simp] theorem State.growTo_inputs (s : State) (n : Nat) : (s.growTo n).inputs = s.inputs := rfl
@[simp] theorem State.growTo_outputs (s : State) (n : Nat) : (s.growTo n).outputs = s.outputs := rfl
@[simp] theorem State.growTo_sink (s : State) (n : Nat) : (s.growTo n).sink = s.sink := rfl

@[simp] theorem State.store_cfg (s : State) (a : Nat) (v : Int) : (s.store a v).cfg = s.cfg := rfl
@[simp] theorem State.store_ip (s : State) (a : Nat) (v : Int) : (s.store a v).ip = s.ip := rfl
@[simp] theorem State.store_relBase (s : State) (a : Nat) (v : Int) : (s.store a v).relBase = s.relBase := rfl
@[simp] theorem State.store_run (s : State) (a : Nat) (v : Int) : (s.store a v).run = s.run := rfl
@[simp] theorem State.store_err (s : State) (a : Nat) (v : Int) : (s.store a v).err = s.err := rfl
@[simp] theorem State.store_mem (s : State) (a : Nat) (v : Int) : (s.store a v).mem = s.mem.store a v := rfl
@[simp] theorem State.store_inputs (s : State) (a : Nat) (v : Int) : (s.store a v).inputs = s.inputs := rfl
@[simp] theorem State.store_outputs (s : State) (a : Nat) (v : Int) : (s.store a v).outputs = s.outputs := rfl
@[simp] theorem State.store_sink (s : State) (a : Nat) (v : Int) : (s.store a v).sink = s.sink := rfl

@[simp] theorem State.record_cfg (s : State) (v : Int) : (s.record v).cfg = s.cfg := rfl
@[simp] theorem State.record_ip (s : State) (v : Int) : (s.record v).ip = s.ip := rfl
@[simp] theorem State.record_relBase (s : State) (v : Int) : (s.record v).relBase = s.relBase := rfl
@[simp] theorem State.record_run (s : State) (v : Int) : (s.record v).run = s.run := rfl
@[simp] theorem State.record_err (s : State) (v : Int) : (s.record v).err = s.err := rfl
@[simp] theorem State.record_mem (s : State) (v : Int) : (s.record v).mem = s.mem := rfl
@[simp] theorem State.record_inputs (s : State) (v : Int) : (s.record v).inputs = s.inputs := rfl
@[simp] theorem State.record_outputs (s : State) (v : Int) : (s.record v).outputs = s.outputs ++ [v] := rfl
@[simp] theorem State.record_sink (s : State) (v : Int) : (s.record v).sink = s.sink := rfl

@[simp] theorem State.answer_cfg (s : State) (a : InAnswer) : (s.answer a).cfg = s.cfg := rfl
@[simp] theorem State.answer_ip (s : State) (a : InAnswer) : (s.answer a).ip = s.ip := rfl
@[simp] theorem State.answer_relBase (s : State) (a : InAnswer) : (s.answer a).relBase = s.relBase := rfl
@[simp] theorem State.answer_run (s : State) (a : InAnswer) : (s.answer a).run = s.run := rfl
@[simp] theorem State.answer_err (s : State) (a : InAnswer) : (s.answer a).err = s.err := rfl
@[simp] theorem State.answer_mem (s : State) (a : InAnswer) : (s.answer a).mem = s.mem := rfl
@[simp] theorem State.answer_inputs (s : State) (a : InAnswer) : (s.answer a).inputs = s.inputs ++ [a.delivered s.cfg] := rfl
@[simp] theorem State.answer_outputs (s : State) (a : InAnswer) : (s.answer a).outputs = s.outputs := rfl
@[simp] theorem State.answer_sink (s : State) (a : InAnswer) : (s.answer a).sink = s.sink := rfl

@[simp] theorem State.advance_cfg (s : State) (w : Nat) : (s.advance w).cfg = s.cfg := rfl
@[simp] theorem State.advance_ip (s : State) (w : Nat) : (s.advance w).ip = s.ip + w := rfl
@[simp] theorem State.advance_relBase (s : State) (w : Nat) : (s.advance w).relBase = s.relBase := rfl
@[simp] theorem State.advance_run (s : State) (w : Nat) : (s.advance w).run = s.run := rfl
@[simp] theorem State.advance_err (s : State) (w : Nat) : (s.advance w).err = s.err := rfl
@[simp] theorem State.advance_mem (s : State) (w : Nat) : (s.advance w).mem = s.mem := rfl
@[simp] theorem State.advance_inputs (s : State) (w : Nat) : (s.advance w).inputs = s.inputs := rfl
@[simp] theorem State.advance_outputs (s : State) (w : Nat) : (s.advance w).outputs = s.outputs := rfl
@[simp] theorem State.advance_sink (s : State) (w : Nat) : (s.advance w).sink = s.sink := rfl

@[simp] theorem State.jump_cfg (s : State) (t : Nat) : (s.jump t).cfg = s.cfg := rfl
@[simp] theorem State.jump_ip (s : State) (t : Nat) : (s.jump t).ip = t := rfl
@[simp] theorem State.jump_relBase (s : State) (t : Nat) : (s.jump t).relBase = s.relBase := rfl
@[simp] theorem State.jump_run (s : State) (t : Nat) : (s.jump t).run = s.run := rfl
@[simp] theorem State.jump_err (s : State) (t : Nat) : (s.jump t).err = s.err := rfl
@[simp] theorem State.jump_mem (s : State) (t : Nat) : (s.jump t).mem = s.mem := rfl
@[simp] theorem State.jump_inputs (s : State) (t : Nat) : (s.jump t).inputs = s.inputs := rfl
@[simp] theorem State.jump_outputs (s : State) (t : Nat) : (s.jump t).outputs = s.outputs := rfl
@[simp] theorem State.jump_sink (s : State) (t : Nat) : (s.jump t).sink = s.sink := rfl

@[simp] theorem State.setRelBase_cfg (s : State) (v : Int) : (s.setRelBase v).cfg = s.cfg := rfl
@[simp] theorem State.setRelBase_ip (s : State) (v : Int) : (s.setRelBase v).ip = s.ip := rfl
@[simp] theorem State.setRelBase_relBase (s : State) (v : Int) : (s.setRelBase v).relBase = v := rfl
@[simp] theorem State.setRelBase_run (s : State) (v : Int) : (s.setRelBase v).run = s.run := rfl
@[simp] theorem State.setRelBase_err (s : State) (v : Int) : (s.setRelBase v).err = s.err := rfl
@[simp] theorem State.setRelBase_mem (s : State) (v : Int) : (s.setRelBase v).mem = s.mem := rfl
@[simp] theorem State.setRelBase_inputs (s : State) (v : Int) : (s.setRelBase v).inputs = s.inputs := rfl
@[simp] theorem State.setRelBase_outputs (s : State) (v : Int) : (s.setRelBase v).outputs = s.outputs := rfl
@[simp] theorem State.setRelBase_sink (s : State) (v : Int) : (s.setRelBase v).sink = s.sink := rfl

@[simp] theorem State.start_cfg (s : State) : s.start.cfg = s.cfg := rfl
@[simp] theorem State.start_ip (s : State) : s.start.ip = 0 := rfl
@[simp] theorem State.start_relBase (s : State) : s.start.relBase = 0 := rfl
@[simp] theorem State.start_run (s : State) : s.start.run = .running := rfl
@[simp] theorem State.start_err (s : State) : s.start.err = none := rfl
@[simp] theorem State.start_mem (s : State) : s.start.mem = s.mem := rfl
@[simp] theorem State.start_inputs (s : State) : s.start.inputs = s.inputs := rfl
@[simp] theorem State.start_outputs (s : State) : s.start.outputs = s.outputs := rfl
@[simp] theorem State.start_sink (s : State) : s.start.sink = s.sink := rfl

end Sys2Proof.Machine
end

