-- ==== Sys2Proof/Laws/Ops.lean ====
section
/-! SUPPORT. Laws of Ops and Alu: for each shared operation, everything it can do, said once. -/

namespace Sys2Proof.Machine

@[simp] theorem Attempt.andThen_ok {α β : Type} (v : α) (s : State) (f : α → State → Attempt β) :
    (Attempt.ok v s).andThen f = f v s := rfl

@[simp] theorem Attempt.andThen_raised {α β : Type} (s : State) (f : α → State → Attempt β) :
    (Attempt.raised s : Attempt α).andThen f = .raised s := rfl

@[simp] theorem Attempt.outcome_ok (s : State) : (Attempt.ok () s).outcome = .next s := rfl

@[simp] theorem Attempt.outcome_raised (s : State) : (Attempt.raised s : Attempt Unit).outcome = .next s := rfl

/-! ## Updates after one another -/

@[simp] theorem State.growTo_growTo (s : State) (a b : Nat) : (s.growTo a).growTo b = s.growTo (max a b) := by
  simp [State.growTo]

/-- What a raise after growing leaves, written out. -/
theorem State.raise_growTo (s : State) (n : Nat) (e : ErrKind) :
    (s.growTo n).raise e =
      { s with run := .failed, err := some e, mem := { s.mem with len := max s.mem.len n } } := by
  simp [State.raise, State.growTo, Memory.growTo_eq]

theorem faultedWith_raise_growTo (s : State) (n : Nat) (e : ErrKind) : FaultedWith e s ((s.growTo n).raise e) :=
  ⟨max s.mem.len n, le_max_left _ _, s.raise_growTo n e⟩

theorem faultedWith_raise (s : State) (e : ErrKind) : FaultedWith e s (s.raise e) :=
  ⟨s.mem.len, le_rfl, rfl⟩

/-- A fault after growing is a fault. -/
theorem FaultedWith.of_growTo {e : ErrKind} {s t : State} {n : Nat} (h : FaultedWith e (s.growTo n) t) :
    FaultedWith e s t := by
  obtain ⟨m, hm, rfl⟩ := h
  simp only [State.growTo_mem, Memory.growTo_len] at hm
  exact ⟨m, by omega, by simp [State.growTo]⟩

/-! ## Addresses -/

theorem addrFault_eq_none {c : Config} {a : Int} : addrFault c a = none ↔ LegalAddr c a := by
  unfold addrFault
  split
  · simp; omega
  · split <;> simp <;> omega

/-- `CheckAddr` is the address's fault, or the address. -/
theorem checkAddr_eq (a : Int) (s : State) :
    checkAddr a s = match addrFault s.cfg a with
      | some e => .raised (s.raise e)
      | none => .ok a.toNat s := by
  unfold checkAddr addrFault
  split
  · rfl
  · split <;> rfl

theorem checkAddr_legal {a : Int} {s : State} (h : LegalAddr s.cfg a) : checkAddr a s = .ok a.toNat s := by
  rw [checkAddr_eq, addrFault_eq_none.mpr h]

theorem checkAddr_fault {a : Int} {s : State} {e : ErrKind} (h : addrFault s.cfg a = some e) :
    checkAddr a s = .raised (s.raise e) := by
  rw [checkAddr_eq, h]

theorem memRead_legal {a : Int} {s : State} (h : LegalAddr s.cfg a) :
    memRead a s = .ok (s.mem.cell a.toNat) (s.growTo (a.toNat + 1)) := by
  rw [memRead, checkAddr_legal h]; rfl

theorem memRead_fault {a : Int} {s : State} {e : ErrKind} (h : addrFault s.cfg a = some e) :
    memRead a s = .raised (s.raise e) := by
  rw [memRead, checkAddr_fault h]; rfl

theorem memWrite_legal {a : Nat} {v : Int} {s : State} (h : a < s.cfg.addrLimit) :
    memWrite a v s = .ok () (s.store a v) := by
  rw [memWrite, checkAddr_legal ⟨by omega, by omega⟩]; rfl

/-- The read at a natural address: `AddressOutOfRange` at or above the limit, else the cell. -/
theorem memRead_nat (a : Nat) (s : State) :
    memRead a s = if a < s.cfg.addrLimit then .ok (s.mem.cell a) (s.growTo (a + 1))
      else .raised (s.raise .addressOutOfRange) := by
  split
  · next h => simpa using memRead_legal (s := s) (a := (a : Int)) ⟨by omega, by omega⟩
  · next h =>
    exact memRead_fault (by rw [addrFault, if_neg (by omega), if_pos (by omega)])

/-! ## Narrowing -/

theorem cellMin_le_zero (n : Nat) : cellMin n ≤ 0 := by
  have := Nat.two_pow_pos (n - 1)
  unfold cellMin; omega

theorem zero_le_cellMax (n : Nat) : 0 ≤ cellMax n := by
  have := Nat.two_pow_pos (n - 1)
  unfold cellMax; omega

theorem inCell_zero (c : Config) : InCell c 0 := ⟨cellMin_le_zero _, zero_le_cellMax _⟩

theorem inCell_one {c : Config} (h : c.wf) : InCell c 1 := by
  have h2 : 2 ^ 1 ≤ 2 ^ (c.xlen - 1) := Nat.pow_le_pow_right (by omega) (by have := h.1; omega)
  have := cellMin_le_zero c.xlen
  refine ⟨by omega, ?_⟩
  unfold cellMax
  omega

theorem narrow_inCell {c : Config} {v : Int} (h : InCell c v) : narrow c v = some v := by
  simp [narrow, h]

theorem wrapCell_inCell {c : Config} (h : c.wf) (v : Int) : InCell c (wrapCell c v) := by
  obtain ⟨n, hn⟩ : ∃ n, c.xlen = n + 1 := ⟨c.xlen - 1, by have := h.1; omega⟩
  have hpos := Nat.two_pow_pos n
  have h2 : (2 ^ (n + 1) : Nat) = 2 * 2 ^ n := by rw [pow_succ]; omega
  have hle := Int.le_bmod (x := v) (m := 2 ^ (n + 1)) (by omega)
  have hlt := Int.bmod_lt (x := v) (m := 2 ^ (n + 1)) (by omega)
  unfold InCell wrapCell cellMin cellMax
  rw [hn]
  simp only [Nat.add_sub_cancel]
  rw [h2] at hle hlt ⊢
  omega

/-- A narrowed result is a cell. -/
theorem narrow_some_inCell {c : Config} (h : c.wf) {v r : Int} (hr : narrow c v = some r) : InCell c r := by
  unfold narrow at hr
  split at hr
  · next hv => cases hr; exact hv
  · split at hr
    · cases hr
    · cases hr; exact wrapCell_inCell h v

/-- Only the setting `FAULT` leaves a result without a cell, and only out of range. -/
theorem narrow_eq_none {c : Config} {v : Int} : narrow c v = none ↔ ¬ InCell c v ∧ c.overflow = .fault := by
  unfold narrow
  split
  · next h => simp [h]
  · next h => cases hc : c.overflow <;> simp [h]

theorem toCell_some {s : State} {v r : Int} (h : narrow s.cfg v = some r) : toCell v s = .ok r s := by
  rw [toCell, h]

theorem toCell_none {s : State} {v : Int} (h : narrow s.cfg v = none) :
    toCell v s = .raised (s.raise .arithmeticOverflow) := by
  rw [toCell, h]

/-! ## The ports -/

/-- The input port gives no answer exactly when the environment has none waiting. -/
theorem portIn_eq_none {s : State} : portIn s = none ↔ s.inputs = [] := by
  unfold portIn
  split <;> simp_all

/-- What the transport delivers can be returned by the port. -/
@[simp] theorem InAnswer.delivered_inRange (c : Config) (a : InAnswer) : (a.delivered c).inRange c = true := by
  unfold InAnswer.delivered
  split
  · assumption
  · rfl

/-- An answer in range is delivered as it is. -/
theorem InAnswer.delivered_of_inRange {c : Config} {a : InAnswer} (h : a.inRange c = true) : a.delivered c = a :=
  if_pos h

@[simp] theorem InAnswer.delivered_exhausted (c : Config) : InAnswer.exhausted.delivered c = .exhausted := rfl

@[simp] theorem InAnswer.delivered_transportError (c : Config) :
    InAnswer.transportError.delivered c = .transportError := rfl

@[simp] theorem InAnswer.delivered_parseError (c : Config) : InAnswer.parseError.delivered c = .parseError := rfl

theorem InAnswer.delivered_value {c : Config} {v : Int} (h : InCell c v) : (InAnswer.value v).delivered c = .value v :=
  delivered_of_inRange (decide_eq_true h)

theorem InAnswer.delivered_outside {c : Config} {v : Int} (h : ¬ InCell c v) :
    (InAnswer.value v).delivered c = .parseError :=
  if_neg (by simpa [InAnswer.inRange] using h)

/-- The input port delivers the first waiting answer, and changes the waiting answers and nothing else: it takes that
one, but for `Exhausted`, which stays. -/
theorem portIn_some {s t : State} {a : InAnswer} (h : portIn s = some (a, t)) :
    ∃ first rest, s.inputs = first :: rest ∧ a = first.delivered s.cfg ∧
      t = { s with inputs := if first = .exhausted then s.inputs else rest } := by
  unfold portIn at h
  split at h
  · cases h
  · next rest hs => cases h; exact ⟨_, rest, hs, rfl, by simp⟩
  · next v rest hs => cases h; exact ⟨_, rest, hs, rfl, by simp⟩
  · next rest hs => cases h; exact ⟨_, rest, hs, rfl, by simp⟩
  · next rest hs => cases h; exact ⟨_, rest, hs, rfl, by simp⟩

/-- The output port accepts the cell, and it is in the record; or rejects it, and the record may or may not hold it. -/
theorem portOut_cases (v : Int) (s : State) :
    (∃ rest, portOut v s = (.accepted, { s with sink := rest, outputs := s.outputs ++ [v] }) ∧
      (s.sink = .accepted :: rest ∨ (s.sink = [] ∧ rest = []))) ∨
    (∃ rest b, portOut v s = (.transportError b,
        { s with sink := rest, outputs := if b then s.outputs ++ [v] else s.outputs }) ∧
      s.sink = .transportError b :: rest) := by
  unfold portOut
  split
  · next h => exact .inl ⟨[], by simp [State.record, ← h], .inr ⟨h, rfl⟩⟩
  · next rest h => exact .inl ⟨rest, rfl, .inl h⟩
  · next rest h => exact .inr ⟨rest, true, rfl, h⟩
  · next rest h => exact .inr ⟨rest, false, rfl, h⟩

end Sys2Proof.Machine
end

