-- ==== Sys2Proof/Laws/Operands.lean ====
section
/-! SUPPORT. Laws of Operands: what resolving a parameter gives, in the words of Sys2Proof/Safety.lean. -/

namespace Sys2Proof.Machine

/-! ## Growing the tape changes no parameter -/

@[simp] theorem State.rawWord_growTo (s : State) (n k : Nat) : (s.growTo n).rawWord k = s.rawWord k := by
  simp [State.rawWord]

@[simp] theorem State.namedAddr_growTo (s : State) (n k : Nat) (m : Mode) :
    (s.growTo n).namedAddr k m = s.namedAddr k m := by
  cases m <;> simp [State.namedAddr]

@[simp] theorem State.operandAddr_growTo (s : State) (n k : Nat) (m : Mode) :
    (s.growTo n).operandAddr k m = s.operandAddr k m := by
  unfold State.operandAddr
  rw [State.namedAddr_growTo]
  rfl

@[simp] theorem State.source_growTo (s : State) (n k : Nat) (m : Mode) :
    (s.growTo n).source k m = s.source k m := by
  have : (s.growTo n).mem.cell = s.mem.cell := by funext a; simp
  unfold State.source
  rw [State.operandAddr_growTo, State.rawWord_growTo, this]
  rfl

@[simp] theorem State.dest_growTo (s : State) (n k : Nat) (m : Mode) : (s.growTo n).dest k m = s.dest k m := by
  unfold State.dest
  rw [State.operandAddr_growTo]
  rfl

@[simp] theorem State.reach_growTo (s : State) (n k : Nat) (m : Mode) : (s.growTo n).reach k m = s.reach k m := by
  simp [State.reach]

@[simp] theorem State.namedFault_growTo (s : State) (n k : Nat) (m : Mode) :
    (s.growTo n).namedFault k m = s.namedFault k m := by
  unfold State.namedFault
  rw [State.namedAddr_growTo]
  rfl

@[simp] theorem State.sourceFault_growTo (s : State) (n k : Nat) (m : Mode) :
    (s.growTo n).sourceFault k m = s.sourceFault k m := by
  unfold State.sourceFault
  rw [State.namedFault_growTo]
  rfl

@[simp] theorem State.destFault_growTo (s : State) (n k : Nat) (m : Mode) :
    (s.growTo n).destFault k m = s.destFault k m := by
  unfold State.destFault
  rw [State.namedFault_growTo]
  rfl

/-! ## The raw word and the named address -/

theorem raw_eq (k : Nat) (s : State) :
    raw k s = if s.ip + k < s.cfg.addrLimit then .ok (s.rawWord k) (s.growTo (s.ip + k + 1))
      else .raised (s.raise .addressOutOfRange) :=
  memRead_nat (s.ip + k) s

theorem operandAddr_some {s : State} {k a : Nat} {m : Mode} (h : s.operandAddr k m = some a) :
    s.namedAddr k m = some (a : Int) ∧ a < s.cfg.addrLimit := by
  unfold State.operandAddr at h
  split at h
  · next b hb =>
    split at h
    · next hl =>
      simp only [Option.some.injEq] at h
      have : b = (a : Int) := by omega
      exact ⟨by rw [hb, this], by omega⟩
    · cases h
  · cases h

theorem operandAddr_of_legal {s : State} {k : Nat} {m : Mode} {b : Int} (h : s.namedAddr k m = some b)
    (hl : LegalAddr s.cfg b) : s.operandAddr k m = some b.toNat := by
  simp [State.operandAddr, h, hl]

theorem dest_some {s : State} {k d : Nat} {m : Mode} (h : s.dest k m = some d) :
    s.ip + k < s.cfg.addrLimit ∧ s.operandAddr k m = some d ∧ d < s.cfg.addrLimit := by
  unfold State.dest at h
  split at h
  · next hk => exact ⟨hk, h, (operandAddr_some h).2⟩
  · cases h

theorem source_some {s : State} {k : Nat} {m : Mode} {v : Int} (h : s.source k m = some v) :
    s.ip + k < s.cfg.addrLimit := by
  unfold State.source at h
  split at h
  · assumption
  · cases h

/-- Resolving mode 2's address: the raw word is read, then the sum narrows or overflows. -/
theorem relativeAddr_eq (k : Nat) (s : State) :
    relativeAddr k s = if s.ip + k < s.cfg.addrLimit then
        match narrow s.cfg (s.rawWord k + s.relBase) with
        | some a => .ok a (s.growTo (s.ip + k + 1))
        | none => .raised ((s.growTo (s.ip + k + 1)).raise .arithmeticOverflow)
      else .raised (s.raise .addressOutOfRange) := by
  rw [relativeAddr, raw_eq]
  split
  · cases h : narrow s.cfg (s.rawWord k + s.relBase) with
    | some a => exact toCell_some h
    | none => exact toCell_none h
  · rfl

/-! ## ReadOperand and WriteAddr -/

theorem readOperand_ok {s : State} {k : Nat} {m : Mode} {v : Int} (h : s.source k m = some v) :
    readOperand k m s = .ok v (s.growTo (s.reach k m)) := by
  have hk := source_some h
  have hnamed : m ≠ .immediate → ∃ a, s.operandAddr k m = some a ∧ s.mem.cell a = v := by
    intro hm
    simpa [State.source, hk, hm] using h
  cases m with
  | immediate =>
    have hv : s.rawWord k = v := by simpa [State.source, hk] using h
    simp [readOperand, raw_eq, hk, hv, State.reach, State.operandAddr, State.namedAddr]
  | position =>
    obtain ⟨a, ha, rfl⟩ := hnamed (by simp)
    obtain ⟨hn, hl⟩ := operandAddr_some ha
    have hr : s.rawWord k = (a : Int) := by simpa [State.namedAddr] using hn
    simp [readOperand, raw_eq, hk, hr, memRead_nat, hl, State.reach, ha]
  | relative =>
    obtain ⟨a, ha, rfl⟩ := hnamed (by simp)
    obtain ⟨hn, hl⟩ := operandAddr_some ha
    have hen : s.cfg.relEn = true := by
      by_contra hc; simp [State.namedAddr, hc] at hn
    have hr : narrow s.cfg (s.rawWord k + s.relBase) = some (a : Int) := by
      simpa [State.namedAddr, hen] using hn
    simp [readOperand, relativeAddr_eq, hk, hr, hen, memRead_nat, hl, State.reach, ha]
  | invalid d =>
    obtain ⟨a, ha, -⟩ := hnamed (by simp)
    simp [State.operandAddr, State.namedAddr] at ha

theorem writeAddr_ok {s : State} {k d : Nat} {m : Mode} (h : s.dest k m = some d) :
    writeAddr k m s = .ok d (s.growTo (s.ip + k + 1)) := by
  obtain ⟨hk, ha, hl⟩ := dest_some h
  obtain ⟨hn, -⟩ := operandAddr_some ha
  have hleg : LegalAddr s.cfg (d : Int) := ⟨by omega, by omega⟩
  cases m with
  | immediate => simp [State.namedAddr] at hn
  | invalid _ => simp [State.namedAddr] at hn
  | position =>
    have hr : s.rawWord k = (d : Int) := by simpa [State.namedAddr] using hn
    have := checkAddr_legal (s := s.growTo (s.ip + k + 1)) (a := (d : Int)) hleg
    simp [writeAddr, raw_eq, hk, hr, this]
  | relative =>
    have hen : s.cfg.relEn = true := by
      by_contra hc; simp [State.namedAddr, hc] at hn
    have hr : narrow s.cfg (s.rawWord k + s.relBase) = some (d : Int) := by
      simpa [State.namedAddr, hen] using hn
    have := checkAddr_legal (s := s.growTo (s.ip + k + 1)) (a := (d : Int)) hleg
    simp [writeAddr, relativeAddr_eq, hk, hr, hen, this]

theorem inputAddr_eq (s : State) : inputAddr s = writeAddr 1 .position s := rfl

theorem inputAddr_ok {s : State} {d : Nat} (h : s.inputDest = some d) :
    inputAddr s = .ok d (s.growTo (s.ip + 2)) := by
  rw [inputAddr_eq, writeAddr_ok (k := 1) h]

/-- A named parameter's fault shows once the raw word is there to be read. -/
theorem namedFault_reads {s : State} {k : Nat} {m : Mode} {e : ErrKind} (h : s.namedFault k m = some e)
    (hk : s.ip + k < s.cfg.addrLimit) :
    (∃ a, s.namedAddr k m = some a ∧ addrFault s.cfg a = some e) ∨
      (s.namedAddr k m = none ∧ e = .arithmeticOverflow) := by
  unfold State.namedFault at h
  split at h
  · omega
  · split at h
    · next a ha => exact .inl ⟨a, ha, h⟩
    · next hn => cases h; exact .inr ⟨hn, rfl⟩

/-- A source parameter that faults raises the first fault of R59, and grows the tape at most. -/
theorem readOperand_fault {s : State} {k : Nat} {m : Mode} {e : ErrKind} (h : s.sourceFault k m = some e) :
    ∃ n, readOperand k m s = .raised ((s.growTo n).raise e) := by
  have hzero : s.raise e = (s.growTo 0).raise e := by simp [State.growTo, Memory.growTo_eq]
  have hout : s.cfg.addrLimit ≤ s.ip + k → e = .addressOutOfRange →
      ∃ n, (Attempt.raised (s.raise .addressOutOfRange) : Attempt Int) = .raised ((s.growTo n).raise e) :=
    fun _ he => ⟨0, by rw [← hzero, he]⟩
  cases m with
  | invalid d =>
    simp only [State.sourceFault, Option.some.injEq] at h
    exact ⟨0, by rw [← hzero, ← h]; rfl⟩
  | immediate =>
    by_cases hk : s.ip + k < s.cfg.addrLimit
    · simp [State.sourceFault, Nat.not_le.mpr hk] at h
    · rw [readOperand, raw_eq, if_neg hk]
      simp only [State.sourceFault, not_lt.mp hk, if_true, Option.some.injEq] at h
      exact hout (not_lt.mp hk) h.symm
  | position =>
    simp only [State.sourceFault] at h
    by_cases hk : s.ip + k < s.cfg.addrLimit
    · rcases namedFault_reads h hk with ⟨a, ha, hf⟩ | ⟨ha, -⟩
      · simp only [State.namedAddr, Option.some.injEq] at ha
        refine ⟨s.ip + k + 1, ?_⟩
        rw [readOperand, raw_eq, if_pos hk, Attempt.andThen_ok, ha, memRead_fault (by simpa using hf)]
      · simp [State.namedAddr] at ha
    · rw [readOperand, raw_eq, if_neg hk, Attempt.andThen_raised]
      simp only [State.namedFault, not_lt.mp hk, if_true, Option.some.injEq] at h
      exact hout (not_lt.mp hk) h.symm
  | relative =>
    simp only [State.sourceFault] at h
    split at h
    · next hen =>
      by_cases hk : s.ip + k < s.cfg.addrLimit
      · refine ⟨s.ip + k + 1, ?_⟩
        rcases namedFault_reads h hk with ⟨a, ha, hf⟩ | ⟨ha, rfl⟩
        · simp only [State.namedAddr, hen, if_true] at ha
          simp [readOperand, hen, relativeAddr_eq, hk, ha,
            memRead_fault (s := s.growTo (s.ip + k + 1)) (by simpa using hf)]
        · simp only [State.namedAddr, hen, if_true] at ha
          simp [readOperand, hen, relativeAddr_eq, hk, ha]
      · simp only [readOperand, hen, if_true, relativeAddr_eq, if_neg hk, Attempt.andThen_raised]
        simp only [State.namedFault, not_lt.mp hk, if_true, Option.some.injEq] at h
        exact hout (not_lt.mp hk) h.symm
    · next hen =>
      cases h
      exact ⟨0, by rw [← hzero]; simp [readOperand, hen]⟩

/-- A destination parameter that faults raises the first fault of R59, and grows the tape at most. -/
theorem writeAddr_fault {s : State} {k : Nat} {m : Mode} {e : ErrKind} (h : s.destFault k m = some e) :
    ∃ n, writeAddr k m s = .raised ((s.growTo n).raise e) := by
  have hzero : s.raise e = (s.growTo 0).raise e := by simp [State.growTo, Memory.growTo_eq]
  have hout : s.cfg.addrLimit ≤ s.ip + k → e = .addressOutOfRange →
      ∃ n, (Attempt.raised (s.raise .addressOutOfRange) : Attempt Nat) = .raised ((s.growTo n).raise e) :=
    fun _ he => ⟨0, by rw [← hzero, he]⟩
  cases m with
  | invalid d =>
    simp only [State.destFault, Option.some.injEq] at h
    exact ⟨0, by rw [← hzero, ← h]; rfl⟩
  | immediate =>
    simp only [State.destFault, Option.some.injEq] at h
    exact ⟨0, by rw [← hzero, ← h]; rfl⟩
  | position =>
    simp only [State.destFault] at h
    by_cases hk : s.ip + k < s.cfg.addrLimit
    · rcases namedFault_reads h hk with ⟨a, ha, hf⟩ | ⟨ha, -⟩
      · simp only [State.namedAddr, Option.some.injEq] at ha
        refine ⟨s.ip + k + 1, ?_⟩
        rw [writeAddr, raw_eq, if_pos hk, Attempt.andThen_ok, ha, checkAddr_fault (by simpa using hf)]
      · simp [State.namedAddr] at ha
    · rw [writeAddr, raw_eq, if_neg hk, Attempt.andThen_raised]
      simp only [State.namedFault, not_lt.mp hk, if_true, Option.some.injEq] at h
      exact hout (not_lt.mp hk) h.symm
  | relative =>
    simp only [State.destFault] at h
    split at h
    · next hen =>
      by_cases hk : s.ip + k < s.cfg.addrLimit
      · refine ⟨s.ip + k + 1, ?_⟩
        rcases namedFault_reads h hk with ⟨a, ha, hf⟩ | ⟨ha, rfl⟩
        · simp only [State.namedAddr, hen, if_true] at ha
          simp [writeAddr, hen, relativeAddr_eq, hk, ha,
            checkAddr_fault (s := s.growTo (s.ip + k + 1)) (by simpa using hf)]
        · simp only [State.namedAddr, hen, if_true] at ha
          simp [writeAddr, hen, relativeAddr_eq, hk, ha]
      · simp only [writeAddr, hen, if_true, relativeAddr_eq, if_neg hk, Attempt.andThen_raised]
        simp only [State.namedFault, not_lt.mp hk, if_true, Option.some.injEq] at h
        exact hout (not_lt.mp hk) h.symm
    · next hen =>
      cases h
      exact ⟨0, by rw [← hzero]; simp [writeAddr, hen]⟩

/-- A source parameter resolves exactly when it has no fault. -/
theorem source_or_fault (s : State) (k : Nat) (m : Mode) :
    (∃ v, s.source k m = some v ∧ s.sourceFault k m = none) ∨
      (∃ e, s.sourceFault k m = some e ∧ s.source k m = none) := by
  by_cases hk : s.ip + k < s.cfg.addrLimit
  · have hk' : ¬ s.cfg.addrLimit ≤ s.ip + k := by omega
    have key : ∀ m, m ≠ .immediate → (∃ a, s.namedAddr k m = some a) →
        (∃ v, s.source k m = some v ∧ s.namedFault k m = none) ∨
          (∃ e, s.namedFault k m = some e ∧ s.source k m = none) := by
      intro m hm ⟨a, ha⟩
      by_cases hl : LegalAddr s.cfg a
      · exact .inl ⟨s.mem.cell a.toNat, by simp [State.source, hk, hm, operandAddr_of_legal ha hl],
          by simp [State.namedFault, hk', ha, addrFault_eq_none.mpr hl]⟩
      · obtain ⟨e, he⟩ := Option.ne_none_iff_exists'.mp (mt addrFault_eq_none.mp hl)
        exact .inr ⟨e, by simp [State.namedFault, hk', ha, he],
          by simp [State.source, State.operandAddr, hm, ha, hl]⟩
    cases m with
    | immediate => exact .inl ⟨s.rawWord k, by simp [State.source, hk], by simp [State.sourceFault, hk']⟩
    | invalid d => exact .inr ⟨.invalidParameterMode, rfl, by simp [State.source, State.operandAddr, State.namedAddr]⟩
    | position => exact key .position (by simp) ⟨_, rfl⟩
    | relative =>
      by_cases hen : s.cfg.relEn = true
      · simp only [State.sourceFault, hen, if_true]
        cases hn : narrow s.cfg (s.rawWord k + s.relBase) with
        | some a => exact key .relative (by simp) ⟨a, by simp [State.namedAddr, hen, hn]⟩
        | none =>
          exact .inr ⟨.arithmeticOverflow, by simp [State.namedFault, hk', State.namedAddr, hen, hn],
            by simp [State.source, State.operandAddr, State.namedAddr, hen, hn]⟩
      · exact .inr ⟨.invalidParameterMode, by simp [State.sourceFault, hen],
          by simp [State.source, State.operandAddr, State.namedAddr, hen]⟩
  · have hk' : s.cfg.addrLimit ≤ s.ip + k := by omega
    refine .inr ?_
    have hs : s.source k m = none := by simp [State.source, hk]
    cases m with
    | immediate => exact ⟨.addressOutOfRange, by simp [State.sourceFault, hk'], hs⟩
    | invalid d => exact ⟨.invalidParameterMode, rfl, hs⟩
    | position => exact ⟨.addressOutOfRange, by simp [State.sourceFault, State.namedFault, hk'], hs⟩
    | relative =>
      by_cases hen : s.cfg.relEn = true
      · exact ⟨.addressOutOfRange, by simp [State.sourceFault, State.namedFault, hen, hk'], hs⟩
      · exact ⟨.invalidParameterMode, by simp [State.sourceFault, hen], hs⟩

/-- A destination parameter resolves exactly when it has no fault. -/
theorem dest_or_fault (s : State) (k : Nat) (m : Mode) :
    (∃ d, s.dest k m = some d ∧ s.destFault k m = none) ∨
      (∃ e, s.destFault k m = some e ∧ s.dest k m = none) := by
  by_cases himm : m = .immediate
  · subst himm
    exact .inr ⟨.invalidParameterMode, rfl, by simp [State.dest, State.operandAddr, State.namedAddr]⟩
  have hf : s.destFault k m = s.sourceFault k m := by cases m <;> simp_all [State.destFault, State.sourceFault]
  have hd : s.source k m = (s.dest k m).map s.mem.cell := by
    unfold State.source State.dest
    split <;> rfl
  rcases source_or_fault s k m with ⟨v, hv, hn⟩ | ⟨e, he, hn⟩
  · rw [hd] at hv
    obtain ⟨d, h, -⟩ := Option.map_eq_some_iff.mp hv
    exact .inl ⟨d, h, by rw [hf, hn]⟩
  · rw [hd] at hn
    exact .inr ⟨e, by rw [hf, he], Option.map_eq_none_iff.mp hn⟩

end Sys2Proof.Machine
end

