-- ==== Sys2Proof/Laws/Shapes.lean ====
section
/-! SUPPORT. Laws of the instruction shapes: format `RRW` and the jumps, complete or faulting, said once. -/

namespace Sys2Proof.Machine

/-- An operation of a format `RRW` instruction that computes `result` and, where it gives nothing, overflows. -/
abbrev Computes (op : Int → Int → State → Attempt Int) (result : Config → Int → Int → Option Int) : Prop :=
  ∀ a b s, op a b s = match result s.cfg a b with
    | some v => .ok v s
    | none => .raised (s.raise .arithmeticOverflow)

theorem computes_aluAdd : Computes aluAdd fun c a b => narrow c (a + b) := fun _ _ _ => rfl

theorem computes_aluMul : Computes aluMul fun c a b => narrow c (a * b) := fun _ _ _ => rfl

theorem computes_aluLt : Computes (fun a b s => .ok (aluLt a b) s) fun _ a b => some (aluLt a b) := fun _ _ _ => rfl

theorem computes_aluEq : Computes (fun a b s => .ok (aluEq a b) s) fun _ a b => some (aluEq a b) := fun _ _ _ => rfl

variable {op : Int → Int → State → Attempt Int} {result : Config → Int → Int → Option Int} {s : State}
  {m1 m2 m3 : Mode}

/-- A format `RRW` instruction whose parameters resolve and whose result is a cell completes. -/
theorem threeOperand_ok (hop : Computes op result) {a b v : Int} {d : Nat} (h1 : s.source 1 m1 = some a)
    (h2 : s.source 2 m2 = some b) (h3 : s.dest 3 m3 = some d) (hr : result s.cfg a b = some v) :
    threeOperand op m1 m2 m3 s = .ok () (s.afterWrite m1 m2 d v) := by
  have hd := (dest_some h3).2.2
  rw [threeOperand, readOperand_ok h1, Attempt.andThen_ok, readOperand_ok (by simpa using h2), Attempt.andThen_ok,
    writeAddr_ok (by simpa using h3), Attempt.andThen_ok, hop]
  simp only [State.growTo_growTo, State.growTo_cfg, hr, Attempt.andThen_ok]
  rw [memWrite_legal (by simpa using hd)]
  simp only [State.reach_growTo, State.growTo_ip]
  simp [State.afterWrite, State.advance, State.store, State.growTo]

/-- A format `RRW` instruction with a fault ends in its first one, precisely. -/
theorem threeOperand_fault (hop : Computes op result) {e : ErrKind}
    (h : s.threeFault (result s.cfg) m1 m2 m3 = some e) :
    ∃ t, threeOperand op m1 m2 m3 s = .raised t ∧ FaultedWith e s t := by
  unfold State.threeFault at h
  rcases source_or_fault s 1 m1 with ⟨a, ha, hf⟩ | ⟨e1, hf, -⟩ <;> rw [hf] at h
  · rcases source_or_fault s 2 m2 with ⟨b, hb, hf⟩ | ⟨e2, hf, -⟩ <;> rw [hf] at h
    · rcases dest_or_fault s 3 m3 with ⟨d, hd, hf⟩ | ⟨e3, hf, -⟩ <;> rw [hf] at h
      · rw [ha, hb] at h
        simp only at h
        split at h
        · next hn =>
          cases h
          rw [threeOperand, readOperand_ok ha, Attempt.andThen_ok, readOperand_ok (by simpa using hb),
            Attempt.andThen_ok, writeAddr_ok (by simpa using hd), Attempt.andThen_ok, hop]
          simp only [State.growTo_growTo, State.growTo_cfg, hn, Attempt.andThen_raised]
          exact ⟨_, rfl, faultedWith_raise_growTo ..⟩
        · cases h
      · cases h
        obtain ⟨n, hn⟩ := writeAddr_fault (s := (s.growTo (s.reach 1 m1)).growTo (s.reach 2 m2)) (by simpa using hf)
        rw [threeOperand, readOperand_ok ha, Attempt.andThen_ok, readOperand_ok (by simpa using hb), Attempt.andThen_ok,
          State.reach_growTo, hn]
        exact ⟨_, rfl, by simpa using faultedWith_raise_growTo ..⟩
    · cases h
      obtain ⟨n, hn⟩ := readOperand_fault (s := s.growTo (s.reach 1 m1)) (by simpa using hf)
      rw [threeOperand, readOperand_ok ha, Attempt.andThen_ok, hn]
      exact ⟨_, rfl, by simpa using faultedWith_raise_growTo ..⟩
  · cases h
    obtain ⟨n, hn⟩ := readOperand_fault hf
    rw [threeOperand, hn]
    exact ⟨_, rfl, faultedWith_raise_growTo ..⟩

/-- Everything a format `RRW` instruction can do: it completes, or ends in its first fault. -/
theorem threeOperand_cases (hop : Computes op result) (s : State) (m1 m2 m3 : Mode) :
    (∃ a b d v, s.source 1 m1 = some a ∧ s.source 2 m2 = some b ∧ s.dest 3 m3 = some d ∧ result s.cfg a b = some v ∧
      threeOperand op m1 m2 m3 s = .ok () (s.afterWrite m1 m2 d v)) ∨
    (∃ e t, s.threeFault (result s.cfg) m1 m2 m3 = some e ∧ threeOperand op m1 m2 m3 s = .raised t ∧
      FaultedWith e s t) := by
  have fault : ∀ e, s.threeFault (result s.cfg) m1 m2 m3 = some e →
      ∃ e t, s.threeFault (result s.cfg) m1 m2 m3 = some e ∧ threeOperand op m1 m2 m3 s = .raised t ∧
        FaultedWith e s t := fun e he => by
    obtain ⟨t, ht⟩ := threeOperand_fault hop he
    exact ⟨e, t, he, ht⟩
  rcases source_or_fault s 1 m1 with ⟨a, ha, hf1⟩ | ⟨e1, hf1, -⟩
  · rcases source_or_fault s 2 m2 with ⟨b, hb, hf2⟩ | ⟨e2, hf2, -⟩
    · rcases dest_or_fault s 3 m3 with ⟨d, hd, hf3⟩ | ⟨e3, hf3, -⟩
      · cases hr : result s.cfg a b with
        | some v => exact .inl ⟨a, b, d, v, ha, hb, hd, hr, threeOperand_ok hop ha hb hd hr⟩
        | none => exact .inr (fault _ (by simp only [State.threeFault, hf1, hf2, hf3, ha, hb, hr]; rfl))
      · exact .inr (fault e3 (by simp only [State.threeFault, hf1, hf2, hf3]))
    · exact .inr (fault e2 (by simp only [State.threeFault, hf1, hf2]))
  · exact .inr (fault e1 (by simp only [State.threeFault, hf1]))

/-- A jump whose operands resolve: taken to a target that is not negative, taken to a negative one, or not taken. -/
theorem conditionalJump_ok (taken : Int → Bool) {a b : Int} (h1 : s.source 1 m1 = some a)
    (h2 : s.source 2 m2 = some b) :
    conditionalJump taken m1 m2 s =
      let u := s.growTo (max (s.reach 1 m1) (s.reach 2 m2))
      if taken a then
        if b < 0 then .raised (u.raise .negativeAddress) else .ok () (u.jump b.toNat)
      else .ok () (u.advance 3) := by
  rw [conditionalJump, readOperand_ok h1, Attempt.andThen_ok, readOperand_ok (by simpa using h2), Attempt.andThen_ok]
  simp [jumpTo]

/-- A jump with a fault in its operands ends in the first one, taken or not. -/
theorem conditionalJump_fault (taken : Int → Bool) {e : ErrKind} (h : s.twoFault m1 m2 = some e) :
    ∃ t, conditionalJump taken m1 m2 s = .raised t ∧ FaultedWith e s t := by
  unfold State.twoFault at h
  rcases source_or_fault s 1 m1 with ⟨a, ha, hf⟩ | ⟨e1, hf, -⟩ <;> rw [hf] at h
  · obtain ⟨n, hn⟩ := readOperand_fault (s := s.growTo (s.reach 1 m1)) (by simpa using h)
    rw [conditionalJump, readOperand_ok ha, Attempt.andThen_ok, hn]
    exact ⟨_, rfl, by simpa using faultedWith_raise_growTo ..⟩
  · cases h
    obtain ⟨n, hn⟩ := readOperand_fault hf
    rw [conditionalJump, hn]
    exact ⟨_, rfl, faultedWith_raise_growTo ..⟩

/-- Everything resolving a jump's operands can do. -/
theorem conditionalJump_cases (taken : Int → Bool) (s : State) (m1 m2 : Mode) :
    (∃ a b, s.source 1 m1 = some a ∧ s.source 2 m2 = some b) ∨
    (∃ e t, s.twoFault m1 m2 = some e ∧ conditionalJump taken m1 m2 s = .raised t ∧ FaultedWith e s t) := by
  rcases source_or_fault s 1 m1 with ⟨a, ha, hf1⟩ | ⟨e1, hf1, -⟩
  · rcases source_or_fault s 2 m2 with ⟨b, hb, -⟩ | ⟨e2, hf2, -⟩
    · exact .inl ⟨a, b, ha, hb⟩
    · have h : s.twoFault m1 m2 = some e2 := by simp only [State.twoFault, hf1, hf2]
      obtain ⟨t, ht⟩ := conditionalJump_fault taken h
      exact .inr ⟨e2, t, h, ht⟩
  · have h : s.twoFault m1 m2 = some e1 := by simp only [State.twoFault, hf1]
    obtain ⟨t, ht⟩ := conditionalJump_fault taken h
    exact .inr ⟨e1, t, h, ht⟩

/-- The address a format `RRW` instruction stores to is the one its parameters name, when both operands resolve. -/
theorem storeAddress_eq {a b : Int} (h1 : s.source 1 m1 = some a) (h2 : s.source 2 m2 = some b) :
    storeAddress m1 m2 m3 s = s.dest 3 m3 := by
  unfold storeAddress
  rw [readOperand_ok h1, Attempt.andThen_ok, readOperand_ok (by simpa using h2), Attempt.andThen_ok]
  rcases dest_or_fault s 3 m3 with ⟨d, hd, -⟩ | ⟨e, he, hn⟩
  · rw [writeAddr_ok (by simpa using hd), hd]
  · obtain ⟨n, hn'⟩ := writeAddr_fault (s := (s.growTo (s.reach 1 m1)).growTo (s.reach 2 m2)) (by simpa using he)
    rw [State.reach_growTo, hn', hn]

end Sys2Proof.Machine
end

