-- ==== Sys2Proof/Laws/Exec.lean ====
section
/-! SUPPORT. Laws of exec: everything each instruction can do, said once.  A statement about all instructions takes
these cases instead of unfolding a meaning. -/

namespace Sys2Proof.Machine

/-- The result a format `RRW` instruction computes from its operands (R78, R79, R98, R99); `none` where it overflows,
and for every other instruction. -/
def resultOf (c : Config) (i : Instr) (a b : Int) : Option Int :=
  match i with
  | .add _ _ _ => narrow c (a + b)
  | .mul _ _ _ => narrow c (a * b)
  | .lessThan _ _ _ => some (aluLt a b)
  | .equals _ _ _ => some (aluEq a b)
  | _ => none

theorem fetch_eq (s : State) :
    fetch s = if s.ip < s.cfg.addrLimit then .ok (s.mem.cell s.ip) (s.growTo (s.ip + 1))
      else .raised (s.raise .addressOutOfRange) :=
  memRead_nat s.ip s

/-- ADD, MUL, LESS-THAN, EQUALS: complete, or end in the first fault. -/
theorem exec_three_cases {s t : State} {m1 m2 m3 : Mode} {i : Instr}
    (hi : i ∈ [.add m1 m2 m3, .mul m1 m2 m3, .lessThan m1 m2 m3, .equals m1 m2 m3]) (h : exec i s = .next t) :
    (∃ a b d v, s.source 1 m1 = some a ∧ s.source 2 m2 = some b ∧ s.dest 3 m3 = some d ∧
      resultOf s.cfg i a b = some v ∧ t = s.afterWrite m1 m2 d v) ∨
    (∃ e, s.threeFault (resultOf s.cfg i) m1 m2 m3 = some e ∧ FaultedWith e s t) := by
  have key : ∀ {op : Int → Int → State → Attempt Int} {r : Config → Int → Int → Option Int}, Computes op r →
      (threeOperand op m1 m2 m3 s).outcome = .next t →
      (∃ a b d v, s.source 1 m1 = some a ∧ s.source 2 m2 = some b ∧ s.dest 3 m3 = some d ∧ r s.cfg a b = some v ∧
        t = s.afterWrite m1 m2 d v) ∨ (∃ e, s.threeFault (r s.cfg) m1 m2 m3 = some e ∧ FaultedWith e s t) := by
    intro op r hop ht
    rcases threeOperand_cases hop s m1 m2 m3 with ⟨a, b, d, v, h1, h2, h3, hr, hx⟩ | ⟨e, u, he, hx, hf⟩ <;>
      rw [hx] at ht <;> cases ht
    · exact .inl ⟨a, b, d, v, h1, h2, h3, hr, rfl⟩
    · exact .inr ⟨e, he, hf⟩
  simp only [List.mem_cons, List.not_mem_nil, or_false] at hi
  rcases hi with rfl | rfl | rfl | rfl
  · exact key computes_aluAdd h
  · exact key computes_aluMul h
  · exact key computes_aluLt h
  · exact key computes_aluEq h

/-- The jumps: taken to a target that is not negative, not taken, taken to a negative target, or a fault in an
operand. -/
theorem exec_jump_cases {s t : State} {m1 m2 : Mode} {i : Instr} (hi : i ∈ [.jumpIfTrue m1 m2, .jumpIfFalse m1 m2])
    (h : exec i s = .next t) :
    (∃ a b, s.source 1 m1 = some a ∧ s.source 2 m2 = some b ∧
      let n := max (s.reach 1 m1) (s.reach 2 m2)
      ((JumpTaken i m1 m2 a ∧ 0 ≤ b ∧ t = { s with ip := b.toNat, mem := s.mem.growTo n }) ∨
        (¬ JumpTaken i m1 m2 a ∧ t = { s with ip := s.ip + 3, mem := s.mem.growTo n }) ∨
        (JumpTaken i m1 m2 a ∧ b < 0 ∧ FaultedWith .negativeAddress s t))) ∨
    (∃ e, s.twoFault m1 m2 = some e ∧ FaultedWith e s t) := by
  have key : ∀ taken : Int → Bool, (∀ a, taken a = true ↔ JumpTaken i m1 m2 a) →
      (conditionalJump taken m1 m2 s).outcome = .next t →
      (∃ a b, s.source 1 m1 = some a ∧ s.source 2 m2 = some b ∧
        let n := max (s.reach 1 m1) (s.reach 2 m2)
        ((JumpTaken i m1 m2 a ∧ 0 ≤ b ∧ t = { s with ip := b.toNat, mem := s.mem.growTo n }) ∨
          (¬ JumpTaken i m1 m2 a ∧ t = { s with ip := s.ip + 3, mem := s.mem.growTo n }) ∨
          (JumpTaken i m1 m2 a ∧ b < 0 ∧ FaultedWith .negativeAddress s t))) ∨
      (∃ e, s.twoFault m1 m2 = some e ∧ FaultedWith e s t) := by
    intro taken htaken ht
    rcases conditionalJump_cases taken s m1 m2 with ⟨a, b, h1, h2⟩ | ⟨e, u, he, hx, hf⟩
    · rw [conditionalJump_ok taken h1 h2] at ht
      refine .inl ⟨a, b, h1, h2, ?_⟩
      rw [← htaken a]
      by_cases hb : b < 0 <;> cases htk : taken a <;> simp only [htk, hb, if_true, if_false] at ht <;> cases ht
      · exact .inr (.inl ⟨Bool.false_ne_true, rfl⟩)
      · exact .inr (.inr ⟨rfl, hb, faultedWith_raise_growTo ..⟩)
      · exact .inr (.inl ⟨Bool.false_ne_true, rfl⟩)
      · exact .inl ⟨rfl, not_lt.mp hb, rfl⟩
    · rw [hx] at ht
      cases ht
      exact .inr ⟨e, he, hf⟩
  simp only [List.mem_cons, List.not_mem_nil, or_false] at hi
  rcases hi with rfl | rfl
  · exact key _ (fun a => by simp [isNonZero, JumpTaken]) h
  · exact key _ (fun a => by simp [isNonZero, JumpTaken]) h

/-- ADJUST-RELATIVE-BASE: `rel_base` changes, or the instruction faults. -/
theorem exec_adjustRelBase_cases {s t : State} {m1 : Mode} (h : exec (.adjustRelBase m1) s = .next t) :
    (∃ a v, s.cfg.relEn = true ∧ s.source 1 m1 = some a ∧ narrow s.cfg (s.relBase + a) = some v ∧
      t = { s with relBase := v, ip := s.ip + 2, mem := s.mem.growTo (s.reach 1 m1) }) ∨
    (s.cfg.relEn = true ∧ ∃ a, s.source 1 m1 = some a ∧ narrow s.cfg (s.relBase + a) = none ∧
      FaultedWith .arithmeticOverflow s t) ∨
    (s.cfg.relEn = true ∧ ∃ e, s.sourceFault 1 m1 = some e ∧ FaultedWith e s t) ∨
    (s.cfg.relEn = false ∧ t = s.raise .invalidOpCode) := by
  simp only [exec, execAdjustRelBase] at h
  split at h
  · next hen =>
    rcases source_or_fault s 1 m1 with ⟨a, ha, -⟩ | ⟨e, he, -⟩
    · rw [readOperand_ok ha, Attempt.andThen_ok] at h
      cases hn : narrow s.cfg (s.relBase + a) with
      | some v =>
        rw [State.growTo_relBase, aluAdd, toCell_some (by simpa using hn)] at h
        cases h
        exact .inl ⟨a, v, hen, ha, hn, rfl⟩
      | none =>
        rw [State.growTo_relBase, aluAdd, toCell_none (by simpa using hn)] at h
        cases h
        exact .inr (.inl ⟨hen, a, ha, hn, faultedWith_raise_growTo ..⟩)
    · obtain ⟨n, hn⟩ := readOperand_fault he
      rw [hn] at h
      cases h
      exact .inr (.inr (.inl ⟨hen, e, he, faultedWith_raise_growTo ..⟩))
  · next hen =>
    cases h
    exact .inr (.inr (.inr ⟨by simpa using hen, rfl⟩))

/-- OUTPUT: the value accepted, the value rejected, or a fault in the operand. -/
theorem exec_output_cases {s t : State} {m1 : Mode} (h : exec (.output m1) s = .next t) :
    (∃ a rest, s.source 1 m1 = some a ∧ (s.sink = .accepted :: rest ∨ (s.sink = [] ∧ rest = [])) ∧
      t = { s with ip := s.ip + 2, outputs := s.outputs ++ [a], sink := rest, mem := s.mem.growTo (s.reach 1 m1) }) ∨
    (∃ a rest b, s.source 1 m1 = some a ∧ s.sink = .transportError b :: rest ∧
      t = { s with run := .failed, err := some .ioTransportFailure, sink := rest, mem := s.mem.growTo (s.reach 1 m1),
                   outputs := if b then s.outputs ++ [a] else s.outputs }) ∨
    (∃ e, s.sourceFault 1 m1 = some e ∧ FaultedWith e s t) := by
  simp only [exec, execOutput] at h
  rcases source_or_fault s 1 m1 with ⟨a, ha, -⟩ | ⟨e, he, -⟩
  · rw [readOperand_ok ha, Attempt.andThen_ok] at h
    rcases portOut_cases a (s.growTo (s.reach 1 m1)) with ⟨rest, hp, hs⟩ | ⟨rest, b, hp, hs⟩ <;> rw [hp] at h <;> cases h
    · exact .inl ⟨a, rest, ha, by simpa using hs, rfl⟩
    · exact .inr (.inl ⟨a, rest, b, ha, by simpa using hs, rfl⟩)
  · obtain ⟨n, hn⟩ := readOperand_fault he
    rw [hn] at h
    cases h
    exact .inr (.inr ⟨e, he, faultedWith_raise_growTo ..⟩)

/-- INPUT: a fault in the destination, the hold, or one of the port's answers; a waiting value that is no cell is
delivered as `ParseError`. -/
theorem exec_input_cases {s t : State} (h : exec .input s = .next t) :
    (∃ e, s.destFault 1 .position = some e ∧ FaultedWith e s t) ∨
    (∃ d, s.inputDest = some d ∧
      ((s.inputs = [] ∧ t = s) ∨
        (∃ v rest, s.inputs = .value v :: rest ∧ InCell s.cfg v ∧
          t = { s with ip := s.ip + 2, inputs := rest, mem := (s.mem.growTo (s.ip + 2)).store d v }) ∨
        (∃ rest, s.inputs = .exhausted :: rest ∧ FaultedWith .missingInput s t) ∨
        (∃ rest, s.inputs = .transportError :: rest ∧ FaultedWith .ioTransportFailure { s with inputs := rest } t) ∨
        (∃ first rest, s.inputs = first :: rest ∧ first.delivered s.cfg = .parseError ∧
          FaultedWith .ioParseFailure { s with inputs := rest } t))) := by
  have taken : ∀ rest e, FaultedWith e { s with inputs := rest }
      (State.raise e { s.growTo (s.ip + 2) with inputs := rest }) := fun rest e => by
    simpa [State.raise, State.growTo] using faultedWith_raise_growTo { s with inputs := rest } (s.ip + 2) e
  simp only [exec, execInput] at h
  rcases dest_or_fault s 1 .position with ⟨d, hd, -⟩ | ⟨e, he, -⟩
  · refine .inr ⟨d, hd, ?_⟩
    rw [inputAddr_ok hd] at h
    simp only at h
    cases hp : portIn (s.growTo (s.ip + 2)) with
    | none =>
      rw [hp] at h
      cases h
      exact .inl ⟨by simpa using portIn_eq_none.mp hp, rfl⟩
    | some p =>
      obtain ⟨a, u⟩ := p
      rw [hp] at h
      obtain ⟨first, rest, hin, rfl, rfl⟩ := portIn_some hp
      simp only [State.growTo_inputs, State.growTo_cfg] at hin h
      cases first with
      | value v =>
        by_cases hv : InCell s.cfg v
        · rw [InAnswer.delivered_value hv] at h
          simp only [storeInput] at h
          rw [memWrite_legal (by simpa using (dest_some hd).2.2)] at h
          cases h
          exact .inr (.inl ⟨v, rest, hin, hv, by simp [State.growTo, State.store, State.advance]⟩)
        · rw [InAnswer.delivered_outside hv] at h
          cases h
          exact .inr (.inr (.inr (.inr ⟨_, rest, hin, InAnswer.delivered_outside hv, taken rest _⟩)))
      | exhausted =>
        cases h
        exact .inr (.inr (.inl ⟨rest, hin, by
          simpa [State.raise] using faultedWith_raise_growTo s (s.ip + 2) .missingInput⟩))
      | transportError =>
        cases h
        exact .inr (.inr (.inr (.inl ⟨rest, hin, taken rest _⟩)))
      | parseError =>
        cases h
        exact .inr (.inr (.inr (.inr ⟨_, rest, hin, rfl, taken rest _⟩)))
  · obtain ⟨n, hn⟩ := writeAddr_fault he
    rw [inputAddr_eq, hn] at h
    cases h
    exact .inl ⟨e, he, faultedWith_raise_growTo ..⟩

/-- A step: the engine was running, and fetched an instruction and executed it, or could not fetch. -/
theorem step_cases {s t : State} (h : step s = .next t) :
    s.run = .running ∧
      ((s.ip < s.cfg.addrLimit ∧ exec (decode (s.mem.cell s.ip)) (s.growTo (s.ip + 1)) = .next t) ∨
        (s.cfg.addrLimit ≤ s.ip ∧ t = s.raise .addressOutOfRange)) := by
  unfold step at h
  split at h
  · cases h
  · cases h
  · next hr =>
    refine ⟨hr, ?_⟩
    rw [fetch_eq] at h
    by_cases hip : s.ip < s.cfg.addrLimit
    · rw [if_pos hip] at h
      exact .inl ⟨hip, h⟩
    · rw [if_neg hip] at h
      cases h
      exact .inr ⟨not_lt.mp hip, rfl⟩

end Sys2Proof.Machine
end

