-- ==== Sys2Proof/Laws/Ranges.lean ====
section
/-! SUPPORT. Laws of ranges: what is read from a tape of cells is a cell, and what is beyond the tape reads 0. -/

namespace Sys2Proof.Machine

/-- Beyond the length of a canonical tape every cell is 0 (R21, R29 (b)). -/
theorem Memory.cell_of_len_le {m : Memory} (h : m.wf) {a : Nat} (ha : m.len ≤ a) : m.cell a = 0 := by
  have key : ∀ l : List (Nat × Int), (∀ p ∈ l, p.1 ≠ a) → lookupCell l a = 0 := by
    intro l
    induction l with
    | nil => exact fun _ => rfl
    | cons p rest ih =>
      intro hp
      rw [lookupCell, if_neg (hp p (by simp))]
      exact ih fun q hq => hp q (by simp [hq])
  exact key m.cells fun p hp => by have := (h.2 p hp).2; omega

/-- The tape at reset is canonical. -/
theorem State.reset_mem_wf : State.reset.mem.wf := by decide

/-- Placing an instruction keeps the tape canonical. -/
theorem placeCells_wf (cfg : Config) (ip bits k : Nat) {m : Memory} (h : m.wf) : (placeCells cfg ip bits k m).wf := by
  induction k with
  | zero => exact h
  | succ k ih =>
    simp only [placeCells]
    split
    · exact Memory.store_wf _ _ ih
    · exact ih

/-- A read of a list of cells gives a cell. -/
theorem lookupCell_inCell {c : Config} {l : List (Nat × Int)} (h : ∀ p ∈ l, InCell c p.2) (a : Nat) :
    InCell c (lookupCell l a) := by
  induction l with
  | nil => exact inCell_zero c
  | cons p rest ih =>
    rw [lookupCell]
    split
    · exact h p (by simp)
    · exact ih fun q hq => h q (by simp [hq])

/-- Writing a cell leaves a list of cells. -/
theorem setCell_inCell {c : Config} {l : List (Nat × Int)} {v : Int} (h : ∀ p ∈ l, InCell c p.2) (hv : InCell c v)
    (a : Nat) : ∀ p ∈ setCell l a v, InCell c p.2 := fun p hp => by
  rcases mem_setCell hp with ⟨rfl, -⟩ | hp
  · exact hv
  · exact h p hp

/-- The value of a source parameter is a cell. -/
theorem source_inCell {s : State} (h : ∀ p ∈ s.mem.cells, InCell s.cfg p.2) {k : Nat} {m : Mode} {v : Int}
    (hv : s.source k m = some v) : InCell s.cfg v := by
  unfold State.source at hv
  split at hv
  · split at hv
    · cases hv
      exact lookupCell_inCell h _
    · obtain ⟨a, -, rfl⟩ := Option.map_eq_some_iff.mp hv
      exact lookupCell_inCell h _
  · cases hv

/-- The eight shapes of instruction, for a statement about all of them. -/
theorem instr_shapes (i : Instr) :
    (∃ m1 m2 m3, i ∈ [.add m1 m2 m3, .mul m1 m2 m3, .lessThan m1 m2 m3, .equals m1 m2 m3]) ∨
      (∃ m1 m2, i ∈ [.jumpIfTrue m1 m2, .jumpIfFalse m1 m2]) ∨ i = .input ∨ (∃ m, i = .output m) ∨
      (∃ m, i = .adjustRelBase m) ∨ i = .halt ∨ (∃ op, i = .illegalOpcode op) ∨ ∃ w, i = .negativeWord w := by
  cases i <;> simp

end Sys2Proof.Machine
end

