-- ==== Sys2Proof/Laws/Growth.lean ====
section
/-! SUPPORT. Laws of growth: no part of an instruction changes the parameters, shrinks the tape, or grows it beyond
`ADDR_LIMIT` (10_state.md R28 and R29, 20_memory.md R33). -/

namespace Sys2Proof.Machine

/-- `t` has the parameters of `s` and a tape that may be longer, up to `ADDR_LIMIT`. -/
def Grows (s t : State) : Prop :=
  t.cfg = s.cfg ∧ s.mem.len ≤ t.mem.len ∧ t.mem.len ≤ max s.mem.len s.cfg.addrLimit

theorem Grows.refl (s : State) : Grows s s := ⟨rfl, le_rfl, le_max_left _ _⟩

theorem Grows.trans {s t u : State} (h : Grows s t) (h' : Grows t u) : Grows s u := by
  obtain ⟨hc, h1, h2⟩ := h
  obtain ⟨hc', h1', h2'⟩ := h'
  rw [hc] at hc' h2'
  exact ⟨hc', by omega, by omega⟩

theorem Grows.store {s : State} {a : Nat} {v : Int} (h : a < s.cfg.addrLimit) : Grows s (s.store a v) :=
  ⟨rfl, by simp, by simp; omega⟩

theorem Grows.growTo {s : State} {n : Nat} (h : n ≤ s.cfg.addrLimit) : Grows s (s.growTo n) :=
  ⟨rfl, by simp, by simp; omega⟩

/-- The state an attempt ends in, complete or faulting, has grown from `s`. -/
def Attempt.GrowsFrom {α : Type} (s : State) : Attempt α → Prop
  | .ok _ t => Grows s t
  | .raised t => Grows s t

theorem Attempt.GrowsFrom.andThen {α β : Type} {s : State} {x : Attempt α} {f : α → State → Attempt β}
    (h : x.GrowsFrom s) (hf : ∀ v t, (f v t).GrowsFrom t) : (x.andThen f).GrowsFrom s := by
  cases x with
  | raised t => exact h
  | ok v t =>
    have := hf v t
    rw [Attempt.andThen_ok]
    revert this
    cases f v t <;> exact h.trans

theorem checkAddr_grows (a : Int) (s : State) : (checkAddr a s).GrowsFrom s := by
  rw [checkAddr_eq]
  split <;> exact Grows.refl s

theorem memRead_grows (a : Int) (s : State) : (memRead a s).GrowsFrom s := by
  by_cases h : LegalAddr s.cfg a
  · rw [memRead_legal h]
    exact Grows.growTo (by have := h.2; have := h.1; omega)
  · obtain ⟨e, he⟩ := Option.ne_none_iff_exists'.mp fun hn => h (addrFault_eq_none.mp hn)
    rw [memRead_fault he]
    exact Grows.refl s

theorem memWrite_grows (a v : Int) (s : State) : (memWrite a v s).GrowsFrom s := by
  rw [memWrite]
  by_cases h : LegalAddr s.cfg a
  · rw [checkAddr_legal h]
    exact Grows.store (by have := h.2; have := h.1; omega)
  · obtain ⟨e, he⟩ := Option.ne_none_iff_exists'.mp fun hn => h (addrFault_eq_none.mp hn)
    rw [checkAddr_fault he]
    exact Grows.refl s

theorem toCell_grows (v : Int) (s : State) : (toCell v s).GrowsFrom s := by
  unfold toCell
  split <;> exact Grows.refl s

theorem relativeAddr_grows (k : Nat) (s : State) : (relativeAddr k s).GrowsFrom s :=
  (memRead_grows _ s).andThen fun _ t => toCell_grows _ t

theorem readOperand_grows (k : Nat) (m : Mode) (s : State) : (readOperand k m s).GrowsFrom s := by
  cases m with
  | position => exact (memRead_grows _ s).andThen fun _ t => memRead_grows _ t
  | immediate => exact memRead_grows _ s
  | relative =>
    simp only [readOperand]
    split
    · exact (relativeAddr_grows k s).andThen fun _ t => memRead_grows _ t
    · exact Grows.refl s
  | invalid d => exact Grows.refl s

theorem writeAddr_grows (k : Nat) (m : Mode) (s : State) : (writeAddr k m s).GrowsFrom s := by
  cases m with
  | position => exact (memRead_grows _ s).andThen fun _ t => checkAddr_grows _ t
  | immediate => exact Grows.refl s
  | relative =>
    simp only [writeAddr]
    split
    · exact (relativeAddr_grows k s).andThen fun _ t => checkAddr_grows _ t
    · exact Grows.refl s
  | invalid d => exact Grows.refl s

theorem inputAddr_grows (s : State) : (inputAddr s).GrowsFrom s := writeAddr_grows 1 .position s

theorem threeOperand_grows {op : Int → Int → State → Attempt Int} (hop : ∀ a b t, (op a b t).GrowsFrom t)
    (m1 m2 m3 : Mode) (s : State) : (threeOperand op m1 m2 m3 s).GrowsFrom s :=
  (readOperand_grows 1 m1 s).andThen fun _ t => (readOperand_grows 2 m2 t).andThen fun _ t =>
    (writeAddr_grows 3 m3 t).andThen fun _ t => (hop _ _ t).andThen fun _ t =>
    (memWrite_grows _ _ t).andThen fun _ t => Grows.refl t

theorem conditionalJump_grows (taken : Int → Bool) (m1 m2 : Mode) (s : State) :
    (conditionalJump taken m1 m2 s).GrowsFrom s :=
  (readOperand_grows 1 m1 s).andThen fun _ t => (readOperand_grows 2 m2 t).andThen fun _ t => by
    split
    · unfold jumpTo
      split <;> exact Grows.refl t
    · exact Grows.refl t

theorem Attempt.GrowsFrom.outcome {s t : State} {x : Attempt Unit} (h : x.GrowsFrom s) (ht : x.outcome = .next t) :
    Grows s t := by
  cases x <;> cases ht <;> exact h

end Sys2Proof.Machine
end

