-- ==== Sys2Proof/Laws/Kinds.lean ====
section
/-! SUPPORT. Laws of fault kinds: which kind resolving a parameter can meet, by its mode (60_exceptions.md R112, R114). -/

namespace Sys2Proof.Machine

/-- The kinds that resolving a source parameter in mode `m` can meet. -/
def SourceKind (c : Config) (m : Mode) (e : ErrKind) : Prop :=
  (e = .invalidParameterMode ∧ RefusedMode c m) ∨ e = .addressOutOfRange ∨
    (e = .negativeAddress ∧ (m = .position ∨ (m = .relative ∧ c.relEn = true))) ∨
    (e = .arithmeticOverflow ∧ c.overflow = .fault ∧ m = .relative ∧ c.relEn = true)

theorem addrFault_kind {c : Config} {a : Int} {e : ErrKind} (h : addrFault c a = some e) :
    e = .negativeAddress ∨ e = .addressOutOfRange := by
  unfold addrFault at h
  split at h
  · cases h; exact .inl rfl
  · split at h <;> cases h
    exact .inr rfl

theorem namedFault_kind {s : State} {k : Nat} {m : Mode} {e : ErrKind}
    (hm : m = .position ∨ (m = .relative ∧ s.cfg.relEn = true)) (h : s.namedFault k m = some e) :
    SourceKind s.cfg m e := by
  by_cases hk : s.ip + k < s.cfg.addrLimit
  · rcases namedFault_reads h hk with ⟨a, -, ha⟩ | ⟨hn, rfl⟩
    · rcases addrFault_kind ha with rfl | rfl
      · exact .inr (.inr (.inl ⟨rfl, hm⟩))
      · exact .inr (.inl rfl)
    · rcases hm with rfl | ⟨rfl, hen⟩
      · cases hn
      · simp only [State.namedAddr, hen, if_true] at hn
        exact .inr (.inr (.inr ⟨rfl, (narrow_eq_none.mp hn).2, rfl, hen⟩))
  · rw [State.namedFault, if_pos (not_lt.mp hk)] at h
    cases h
    exact .inr (.inl rfl)

theorem sourceFault_kind {s : State} {k : Nat} {m : Mode} {e : ErrKind} (h : s.sourceFault k m = some e) :
    SourceKind s.cfg m e := by
  cases m with
  | position => exact namedFault_kind (.inl rfl) h
  | immediate =>
    simp only [State.sourceFault] at h
    split at h <;> cases h
    exact .inr (.inl rfl)
  | relative =>
    simp only [State.sourceFault] at h
    split at h
    · next hen => exact namedFault_kind (.inr ⟨rfl, hen⟩) h
    · next hen => cases h; exact .inl ⟨rfl, .inr ⟨rfl, by simpa using hen⟩⟩
  | invalid d => cases h; exact .inl ⟨rfl, .inl ⟨d, rfl⟩⟩

/-- A destination parameter meets the same kinds, and mode 1 is refused there (R61). -/
theorem destFault_kind {s : State} {k : Nat} {m : Mode} {e : ErrKind} (h : s.destFault k m = some e) :
    SourceKind s.cfg m e ∨ (e = .invalidParameterMode ∧ m = .immediate) := by
  cases m with
  | position => exact .inl (namedFault_kind (.inl rfl) h)
  | immediate => cases h; exact .inr ⟨rfl, rfl⟩
  | relative =>
    simp only [State.destFault] at h
    split at h
    · next hen => exact .inl (namedFault_kind (.inr ⟨rfl, hen⟩) h)
    · next hen => cases h; exact .inl (.inl ⟨rfl, .inr ⟨rfl, by simpa using hen⟩⟩)
  | invalid d => cases h; exact .inl (.inl ⟨rfl, .inl ⟨d, rfl⟩⟩)

/-- Where the first fault of a format `RRW` instruction comes from. -/
theorem threeFault_from {s : State} {result : Int → Int → Option Int} {m1 m2 m3 : Mode} {e : ErrKind}
    (h : s.threeFault result m1 m2 m3 = some e) :
    s.sourceFault 1 m1 = some e ∨ s.sourceFault 2 m2 = some e ∨ s.destFault 3 m3 = some e ∨
      (e = .arithmeticOverflow ∧ ∃ a b, result a b = none) := by
  unfold State.threeFault at h
  split at h
  · next h1 => cases h; exact .inl h1
  · split at h
    · next h2 => cases h; exact .inr (.inl h2)
    · split at h
      · next h3 => cases h; exact .inr (.inr (.inl h3))
      · split at h
        · split at h <;> cases h
          next hr => exact .inr (.inr (.inr ⟨rfl, _, _, hr⟩))
        · cases h

/-- Where the first fault in a jump's operands comes from. -/
theorem twoFault_from {s : State} {m1 m2 : Mode} {e : ErrKind} (h : s.twoFault m1 m2 = some e) :
    s.sourceFault 1 m1 = some e ∨ s.sourceFault 2 m2 = some e := by
  unfold State.twoFault at h
  split at h
  · next h1 => cases h; exact .inl h1
  · exact .inr h

end Sys2Proof.Machine
end

