-- ==== Sys2Proof/Laws/PerInstr.lean ====
section
/-! SUPPORT. PerInstr: the statements about the instructions as syntax, one lemma per constructor. -/

namespace Sys2Proof.Laws

/-- The opcode value of an instruction's row (R52); a negative word has none. -/
def opcodeOf : Instr → Option Nat
  | .add _ _ _ => some 1
  | .mul _ _ _ => some 2
  | .input => some 3
  | .output _ => some 4
  | .jumpIfTrue _ _ => some 5
  | .jumpIfFalse _ _ => some 6
  | .lessThan _ _ _ => some 7
  | .equals _ _ _ => some 8
  | .adjustRelBase _ => some 9
  | .halt => some 99
  | .illegalOpcode op => some op
  | .negativeWord _ => none

/-- A word put together from digits, with the opcode it was put together with. -/
theorem wordOf_opcode {op : Nat} (a b c : Nat) (h : op < 100) :
    0 ≤ wordOf op a b c ∧ (wordOf op a b c).toNat % 100 = op := by
  unfold wordOf
  exact ⟨by omega, by rw [Int.toNat_natCast]; exact opcode_of_digits a b c h⟩

end Sys2Proof.Laws

namespace Sys2Proof.Laws.EncodedOpcode

/-- The canonical word of a well-formed instruction carries its row's opcode in the two low digits (R50, R72); a negative
word stays negative (R49). -/
def Statement (i : Instr) : Prop :=
  i.wf = true → match opcodeOf i with
    | some op => 0 ≤ encode i ∧ (encode i).toNat % 100 = op
    | none => encode i < 0

theorem add (m1 m2 m3 : Mode) : Statement (.add m1 m2 m3) := fun _ => wordOf_opcode _ _ _ (by omega)

theorem mul (m1 m2 m3 : Mode) : Statement (.mul m1 m2 m3) := fun _ => wordOf_opcode _ _ _ (by omega)

theorem input : Statement .input := fun _ => wordOf_opcode _ _ _ (by omega)

theorem output (m1 : Mode) : Statement (.output m1) := fun _ => wordOf_opcode _ _ _ (by omega)

theorem jumpIfTrue (m1 m2 : Mode) : Statement (.jumpIfTrue m1 m2) := fun _ => wordOf_opcode _ _ _ (by omega)

theorem jumpIfFalse (m1 m2 : Mode) : Statement (.jumpIfFalse m1 m2) := fun _ => wordOf_opcode _ _ _ (by omega)

theorem lessThan (m1 m2 m3 : Mode) : Statement (.lessThan m1 m2 m3) := fun _ => wordOf_opcode _ _ _ (by omega)

theorem equals (m1 m2 m3 : Mode) : Statement (.equals m1 m2 m3) := fun _ => wordOf_opcode _ _ _ (by omega)

theorem adjustRelBase (m1 : Mode) : Statement (.adjustRelBase m1) := fun _ => wordOf_opcode _ _ _ (by omega)

theorem halt : Statement .halt := fun _ => wordOf_opcode _ _ _ (by omega)

theorem illegalOpcode (op : Nat) : Statement (.illegalOpcode op) := fun h => by
  have : op < 100 := by
    simp only [Instr.wf, illegalOpcodeValue, decide_eq_true_eq] at h
    omega
  exact wordOf_opcode _ _ _ this

theorem negativeWord (w : Int) : Statement (.negativeWord w) := fun h => by
  show w < 0
  simpa [Instr.wf] using h

end Sys2Proof.Laws.EncodedOpcode
end

