-- ==== Sys2Proof/Tests/Slice0.lean ====
section
/-! SUPPORT. Tests: the refusals of WellFormed, words written out from the spec's encoding, single steps whose results come
from spec/95_test_vectors.md or from the rule named, and for every statement with hypotheses a concrete state that meets
them. -/

namespace Sys2Proof.Tests

open Sys2Proof.Machine

/-! ## Helpers -/

/-- The first state of a run of an image, with this hardware's parameters. -/
def boot (image : List Int) (inputs : List InAnswer := [.exhausted]) : State :=
  { State.reset with mem := Memory.ofImage image, inputs := inputs }

/-- The same with an `ADDR_LIMIT` of `n`. -/
def bootLim (n : Nat) (image : List Int) (inputs : List InAnswer := [.exhausted]) : State :=
  { boot image inputs with cfg := { Config.hardware with addrLimit := n } }

/-- The same with `OVERFLOW = WRAP`. -/
def bootWrap (image : List Int) : State :=
  { boot image with cfg := { Config.hardware with overflow := .wrap } }

/-- The same with `REL_EN = false`. -/
def bootNoRel (image : List Int) : State :=
  { boot image with cfg := { Config.hardware with relEn := false } }

/-- The same with a relative base. -/
def bootRel (rb : Int) (image : List Int) : State := { boot image with relBase := rb }

/-- The same with answers of the output port. -/
def bootSink (sink : List OutAnswer) (image : List Int) : State := { boot image with sink := sink }

/-- The next state, if there is one. -/
def after (o : Host.Outcome State Fault Refusal) : Option State :=
  match o with
  | .next s => some s
  | .fault _ => none
  | .refused _ => none

/-- What the tests look at after one step. -/
def seen {α : Type} (s : State) (f : State → α) : Option α := (after (step s)).map f

theorem next_of_after {o : Host.Outcome State Fault Refusal} {p : State → Bool} (h : (after o).any p = true) :
    ∃ t, o = .next t ∧ p t = true := by
  cases o with
  | next t => exact ⟨t, rfl, h⟩
  | fault f => cases h
  | refused r => cases h

/-- `MAX` and `MIN` of 64-bit cells (R6). -/
def MAX : Int := 9223372036854775807
def MIN : Int := -9223372036854775808

/-! ## WellFormed refuses -/

theorem test_wf_add_mode1 : (Instr.add (.invalid 2) .position .position).wf = false := by decide
theorem test_wf_add_mode2 : (Instr.add .position (.invalid 10) .position).wf = false := by decide
theorem test_wf_add_mode3 : (Instr.add .position .position (.invalid 0)).wf = false := by decide
theorem test_wf_mul_mode1 : (Instr.mul (.invalid 1) .position .position).wf = false := by decide
theorem test_wf_mul_mode2 : (Instr.mul .position (.invalid 10) .position).wf = false := by decide
theorem test_wf_mul_mode3 : (Instr.mul .position .position (.invalid 11)).wf = false := by decide
theorem test_wf_output : (Instr.output (.invalid 10)).wf = false := by decide
theorem test_wf_jumpIfTrue_mode1 : (Instr.jumpIfTrue (.invalid 2) .position).wf = false := by decide
theorem test_wf_jumpIfTrue_mode2 : (Instr.jumpIfTrue .position (.invalid 10)).wf = false := by decide
theorem test_wf_jumpIfFalse_mode1 : (Instr.jumpIfFalse (.invalid 2) .position).wf = false := by decide
theorem test_wf_jumpIfFalse_mode2 : (Instr.jumpIfFalse .position (.invalid 10)).wf = false := by decide
theorem test_wf_lessThan_mode1 : (Instr.lessThan (.invalid 2) .position .position).wf = false := by decide
theorem test_wf_lessThan_mode2 : (Instr.lessThan .position (.invalid 10) .position).wf = false := by decide
theorem test_wf_lessThan_mode3 : (Instr.lessThan .position .position (.invalid 0)).wf = false := by decide
theorem test_wf_equals_mode1 : (Instr.equals (.invalid 2) .position .position).wf = false := by decide
theorem test_wf_equals_mode2 : (Instr.equals .position (.invalid 10) .position).wf = false := by decide
theorem test_wf_equals_mode3 : (Instr.equals .position .position (.invalid 0)).wf = false := by decide
theorem test_wf_adjustRelBase : (Instr.adjustRelBase (.invalid 10)).wf = false := by decide
theorem test_wf_illegalOpcode_used :
    (Instr.illegalOpcode 1).wf = false ∧ (Instr.illegalOpcode 9).wf = false ∧ (Instr.illegalOpcode 99).wf = false ∧
      (Instr.illegalOpcode 100).wf = false := by decide
theorem test_wf_negativeWord : (Instr.negativeWord 0).wf = false := by decide

/-! ## Words written out digit by digit: `ABCDE`, `DE` the opcode, `C` mode 1, `B` mode 2, `A` mode 3 (R48) -/

theorem test_decode_add : decode 21201 = .add .relative .immediate .relative := by decide
theorem test_decode_mul : decode 20102 = .mul .immediate .position .relative := by decide
theorem test_decode_input : decode 3 = .input ∧ decode 903 = .input := by decide
theorem test_decode_output : decode 4 = .output .position ∧ decode 1104 = .output .immediate := by decide
theorem test_decode_jumpIfTrue : decode 2105 = .jumpIfTrue .immediate .relative := by decide
theorem test_decode_jumpIfFalse : decode 1206 = .jumpIfFalse .relative .immediate := by decide
theorem test_decode_lessThan : decode 20107 = .lessThan .immediate .position .relative := by decide
theorem test_decode_equals : decode 12308 = .equals (.invalid 3) .relative .immediate := by decide
theorem test_decode_adjustRelBase : decode 9 = .adjustRelBase .position ∧ decode 109 = .adjustRelBase .immediate := by
  decide
theorem test_decode_halt : decode 99 = .halt ∧ decode 199 = .halt := by decide
theorem test_decode_illegalOpcode : decode 0 = .illegalOpcode 0 ∧ decode 398 = .illegalOpcode 98 := by decide
theorem test_decode_negativeWord : decode (-1) = .negativeWord (-1) := by decide

theorem test_encode_add : encode (.add .position .immediate .relative) = 21001 := by decide
theorem test_encode_jump : encode (.jumpIfFalse .immediate .relative) = 2106 := by decide

/-- The interface numbering: the first cell is the low 64 bits, two's complement. -/
theorem test_decodeTableWord :
    decodeTableWord 64 1002 = some (.mul .position .immediate .position) ∧
      decodeTableWord 64 (2 ^ 64 - 1) = some (.negativeWord (-1)) ∧ decodeTableWord 8 3 = some .input := by decide
theorem test_withFetchWord_runs :
    seen (State.reset.withFetchWord 64 99) (·.run) = some .halted ∧
      seen (State.reset.withFetchWord 64 9) (·.ip) = some 2 := by decide

/-! ## One step each: the results are those of spec/95_test_vectors.md, or of the rule named -/

/-- T11a, `-5 + 3`. -/
theorem test_add_negative : seen (boot [1101, -5, 3, 5, 99, 0]) (fun s => (s.ip, s.mem.cell 5)) = some (4, -2) := by decide
/-- T12a, T12b, the overflow. -/
theorem test_add_overflow :
    seen (boot [1101, MAX, 1, 5, 99, 0]) (fun s => (s.ip, s.err, s.mem.cell 5)) = some (0, some .arithmeticOverflow, 0) ∧
      seen (bootWrap [1101, MAX, 1, 5, 99, 0]) (fun s => (s.ip, s.err, s.mem.cell 5)) = some (4, none, MIN) := by decide
/-- V4. -/
theorem test_mul_modes : seen (boot [1002, 4, 3, 4, 33]) (fun s => (s.ip, s.mem.cell 4)) = some (4, 99) := by decide
/-- T13a, T13b. -/
theorem test_mul_min :
    seen (boot [1102, MIN, -1, 5, 99, 0]) (·.err) = some (some .arithmeticOverflow) ∧
      seen (bootWrap [1102, MIN, -1, 5, 99, 0]) (·.mem.cell 5) = some MIN := by decide
/-- T18d, T18f: signed, and not reflexive. -/
theorem test_lessThan :
    seen (boot [1107, MIN, MAX, 5, 99, -1]) (·.mem.cell 5) = some 1 ∧
      seen (boot [1107, 4, 4, 5, 99, -1]) (·.mem.cell 5) = some 0 := by decide
/-- T19d: the result overwrites the instruction's own word. -/
theorem test_equals_own_word : seen (boot [8, 5, 6, 0, 99, 7, 7]) (fun s => (s.ip, s.mem.cell 0)) = some (4, 1) := by decide
/-- T19b. -/
theorem test_equals_differ : seen (boot [1108, 8, -8, 5, 99, -1]) (·.mem.cell 5) = some 0 := by decide
/-- T20a's second instruction: the mode digit 2 is ignored, the tape grows to the destination. -/
theorem test_input_mode_digit :
    seen { boot [203, 7, 99] [.value 42] with relBase := 5 } (fun s => (s.ip, s.mem.cell 7, s.mem.cell 12, s.mem.len)) =
      some (2, 42, 0, 8) := by decide
/-- T22a, T24d: a bad destination consumes nothing; a silent port holds the engine. -/
theorem test_input_bad_and_hold :
    seen (boot [3, -1, 99] [.value 42]) (fun s => (s.err, s.inputs)) = some (some .negativeAddress, [.value 42]) ∧
      after (step (boot [3, 5, 99] [])) = some (boot [3, 5, 99] []) := by decide
/-- T23b: a read beyond the tape gives 0 and grows it. -/
theorem test_output_beyond :
    seen (boot [4, 50, 99]) (fun s => (s.ip, s.mem.len, s.outputs)) = some (2, 51, [0]) := by decide
/-- T24c: the record after a rejected output is whatever the environment's bit says. -/
theorem test_output_rejected :
    seen (bootSink [.transportError true] [104, 1, 99]) (fun s => (s.err, s.ip, s.outputs)) =
        some (some .ioTransportFailure, 0, [1]) ∧
      seen (bootSink [.transportError false] [104, 1, 99]) (fun s => (s.err, s.ip, s.outputs)) =
        some (some .ioTransportFailure, 0, []) := by decide
/-- T25e: an indirect target. -/
theorem test_jumpIfTrue_indirect : seen (boot [105, 1, 3, 4, 104, 7, 99]) (·.ip) = some 4 := by decide
/-- T27a, T27b. -/
theorem test_jumpIfTrue_negative :
    seen (boot [1105, 1, -4, 99]) (fun s => (s.err, s.ip)) = some (some .negativeAddress, 0) ∧
      seen (boot [1105, 0, -4, 99]) (fun s => (s.err, s.ip)) = some (none, 3) := by decide
/-- T26a, T26b. -/
theorem test_jumpIfFalse :
    seen (boot [1106, 0, 4, 99, 104, 7, 99]) (·.ip) = some 4 ∧ seen (boot [1106, 5, 4, 99, 104, 7, 99]) (·.ip) = some 3 := by
  decide
/-- T30b's second instruction: the operand is read with the old base. -/
theorem test_adjustRelBase_old_base :
    seen (bootRel 3 [209, 2, 99, 0, 0, 40]) (fun s => (s.ip, s.relBase)) = some (2, 43) := by decide
/-- T31a's second instruction. -/
theorem test_adjustRelBase_overflow :
    seen (bootRel MAX [109, 1, 99]) (fun s => (s.err, s.ip, s.relBase)) = some (some .arithmeticOverflow, 0, MAX) := by
  decide
/-- T1. -/
theorem test_halt : seen (boot [99]) (fun s => (s.run, s.err, s.ip, s.mem.len)) = some (.halted, none, 0, 1) := by decide
/-- T6b, T34a. -/
theorem test_illegalOpcode :
    seen (boot [300]) (fun s => (s.run, s.err, s.ip)) = some (.failed, some .invalidOpCode, 0) ∧
      seen (bootNoRel [109, 1, 99]) (fun s => (s.run, s.err, s.ip)) = some (.failed, some .invalidOpCode, 0) := by decide
/-- T5b. -/
theorem test_negativeWord : seen (boot [-99]) (fun s => (s.run, s.err, s.ip)) = some (.failed, some .invalidOpCode, 0) := by
  decide
/-- T7, T8a: an invalid mode digit, and an immediate destination. -/
theorem test_invalid_modes :
    seen (boot [301, 0, 0, 0, 99]) (fun s => (s.err, s.mem.len)) = some (some .invalidParameterMode, 5) ∧
      seen (boot [10001, 0, 0, 0, 99]) (·.err) = some (some .invalidParameterMode) := by decide
/-- T4: the empty tape. -/
theorem test_empty_tape : seen State.reset (fun s => (s.err, s.ip, s.mem.len)) = some (some .invalidOpCode, 0, 1) := by decide
/-- T33c, T32a's second instruction. -/
theorem test_bad_addresses :
    seen (bootLim 3 [4, 5, 99]) (·.err) = some (some .addressOutOfRange) ∧
      seen (bootRel (-5) [204, 2, 99]) (·.err) = some (some .negativeAddress) := by decide
/-- U14: an image out of range is refused. -/
theorem test_launch_refuses : State.launch ⟨Config.hardware, [MAX + 1], [], [], []⟩ = none := by decide

/-! ## Witnesses: concrete states that meet a statement's hypotheses, each clause at a boundary -/

theorem witness_DecodeOfEncodeIsTheInstruction :
    (Instr.add (.invalid 3) .immediate (.invalid 9)).wf = true ∧ (Instr.illegalOpcode 0).wf = true ∧
      (Instr.illegalOpcode 10).wf = true ∧ (Instr.illegalOpcode 98).wf = true ∧ (Instr.negativeWord (-1)).wf = true := by
  decide

theorem witness_EncodeOfDecodeIsTheCanonicalWord : (-1 : Int) < 0 := by decide

theorem witness_StepRunsTheDecodedInstruction :
    let s := { bootLim 5 [1, 0, 0, 0, 99] with ip := 4 }
    s.run = .running ∧ s.ip < s.cfg.addrLimit ∧ s.ip + 1 = s.cfg.addrLimit := by decide

theorem witness_FetchBeyondTheLimitFaults :
    let s := { bootLim 5 [1, 0, 0, 0, 99] with ip := 5 }
    s.run = .running ∧ s.cfg.addrLimit ≤ s.ip := by decide

theorem witness_FetchBeyondTheTapeFaults :
    let s := { boot [99] with ip := 1 }
    s.mem.wf ∧ s.run = .running ∧ s.mem.len ≤ s.ip ∧ s.ip < s.cfg.addrLimit := by decide

theorem witness_EndedEngineMakesNoStep :
    { boot [] with run := .halted }.run = .halted ∧ ((boot []).raise .invalidOpCode).run = .failed := by decide

theorem witness_EveryInstructionHasANextState : State.reset.run = .running := by decide

theorem witness_MemReadGivesTheCellAndGrows :
    let s := bootLim 4 [7]
    LegalAddr s.cfg 0 ∧ LegalAddr s.cfg 3 ∧ s.mem.wf ∧ s.mem.len ≤ 1 ∧ memRead 0 s = .ok 7 s ∧
      (∀ p ∈ s.mem.cells, InCell s.cfg p.2) ∧ (-1 : Int) < 0 ∧ (s.cfg.addrLimit : Int) ≤ 4 := by decide

theorem witness_MemWriteWritesOneCell :
    let s := bootLim 4 [7, 3, 0, 0]
    LegalAddr s.cfg 0 ∧ LegalAddr s.cfg 3 ∧ (-1 : Int) < 0 ∧ (s.cfg.addrLimit : Int) ≤ 4 ∧
      writeAddr 1 .position s = .ok 3 s := by decide

theorem witness_TapesThatReadAlikeAreEqual :
    let m := Memory.ofImage [1, 0, 2]
    let n := (Memory.ofImage [1, 5, 0]).store 2 2 |>.store 1 0
    m.wf ∧ n.wf ∧ m.len = n.len ∧ ∀ a, m.cell a = n.cell a := by
  have h : Memory.ofImage [1, 0, 2] = ((Memory.ofImage [1, 5, 0]).store 2 2).store 1 0 := by decide
  exact ⟨by decide, by decide, by decide, fun a => congrArg (·.cell a) h⟩

theorem witness_ToCellNarrowsExactResults :
    (boot []).cfg.wf ∧ InCell (boot []).cfg MAX ∧ InCell (boot []).cfg MIN ∧ ¬ InCell (boot []).cfg (MAX + 1) ∧
      (boot []).cfg.overflow = .fault ∧ (bootWrap []).cfg.wf ∧ ¬ InCell (bootWrap []).cfg (MIN - 1) ∧
      (bootWrap []).cfg.overflow = .wrap := by decide

theorem witness_AluAddLaws :
    let s := boot []
    let w := bootWrap []
    s.cfg.wf ∧ w.cfg.wf ∧ InCell s.cfg MAX ∧ InCell s.cfg 0 ∧ InCell s.cfg (MAX + 0) ∧ InCell s.cfg 1 ∧
      ¬ InCell s.cfg (MAX + 1) ∧ s.cfg.overflow = .fault ∧ InCell w.cfg MIN ∧ InCell w.cfg (-1) ∧
      w.cfg.overflow = .wrap ∧ cellMax w.cfg.xlen < MAX + 1 ∧ MIN + -1 < cellMin w.cfg.xlen := by decide

theorem witness_AluMulLaws :
    let s := boot []
    let w := bootWrap []
    s.cfg.xlen = 64 ∧ s.cfg.wf ∧ w.cfg.wf ∧ InCell s.cfg MIN ∧ InCell s.cfg (-1) ∧ MAX ≠ cellMin s.cfg.xlen ∧
      s.cfg.overflow = .fault ∧ w.cfg.overflow = .wrap ∧ InCell s.cfg 3037000499 ∧
      InCell s.cfg (3037000499 * 3037000499) ∧ InCell s.cfg 3037000500 ∧ ¬ InCell s.cfg (3037000500 * 3037000500) ∧
      ¬ InCell w.cfg (MIN * -1) := by decide

theorem witness_ComparisonsAreSignedAndTotal :
    Config.hardware.wf ∧ (-1 : Int) < 0 ∧ (0 : Int) ≤ 0 ∧ (MIN : Int) = MIN ∧ (MIN : Int) ≠ MAX := by decide

theorem witness_ReadOperandSelectsByMode :
    let s := { bootLim 4 [204, 2, 0, 1] with relBase := -2 }
    let o := bootRel MAX [204, MAX]
    s.ip + 3 < s.cfg.addrLimit ∧ s.cfg.addrLimit ≤ s.ip + 4 ∧ s.cfg.relEn = true ∧
      aluAdd (s.mem.cell (s.ip + 1)) s.relBase s = .ok 0 s ∧ o.ip + 1 < o.cfg.addrLimit ∧ o.cfg.relEn = true ∧
      aluAdd (o.mem.cell (o.ip + 1)) o.relBase o = .raised (o.raise .arithmeticOverflow) ∧
      (bootNoRel []).cfg.relEn = false := by decide

theorem witness_WriteAddrSelectsByMode :
    let s := { bootLim 4 [21101, 1, 1, 5] with relBase := -2 }
    let o := bootRel MAX [21101, 1, 1, MAX]
    s.ip + 3 < s.cfg.addrLimit ∧ s.cfg.addrLimit ≤ s.ip + 4 ∧ s.cfg.relEn = true ∧
      aluAdd (s.mem.cell (s.ip + 3)) s.relBase s = .ok 3 s ∧ o.ip + 3 < o.cfg.addrLimit ∧ o.cfg.relEn = true ∧
      aluAdd (o.mem.cell (o.ip + 3)) o.relBase o = .raised (o.raise .arithmeticOverflow) ∧
      (bootNoRel []).cfg.relEn = false := by decide

theorem witness_CheckAddrRefusesIllegalAddresses :
    let s := bootLim 4 []
    (-1 : Int) < 0 ∧ (s.cfg.addrLimit : Int) ≤ 4 ∧ (0 : Int) ≤ 3 ∧ (3 : Int) < (s.cfg.addrLimit : Int) := by decide

theorem witness_AddWritesTheSum :
    let s := bootLim 6 [21101, MAX - 1, 1, 5]
    let f := bootLim 6 [1101, 1, 1, 6]
    (21101 % 100 = 1) ∧ s.source 1 .immediate = some (MAX - 1) ∧ s.source 2 .immediate = some 1 ∧
      s.dest 3 .relative = some 5 ∧ narrow s.cfg (MAX - 1 + 1) = some MAX ∧
      f.threeFault (fun a b => narrow f.cfg (a + b)) .immediate .immediate .position = some .addressOutOfRange ∧
      s.threeFault (fun a b => narrow s.cfg (a + b)) .immediate (.invalid 3) .immediate = some .invalidParameterMode := by
  decide

theorem witness_MulWritesTheProduct :
    let s := bootLim 6 [1002, 4, 1, 5, MIN]
    let f := bootLim 6 [2, 4, 5, 5, MIN, -1]
    (22202 % 100 = 2) ∧ s.source 1 .position = some MIN ∧ s.source 2 .immediate = some 1 ∧ s.dest 3 .position = some 5 ∧
      narrow s.cfg (MIN * 1) = some MIN ∧
      f.threeFault (fun a b => narrow f.cfg (a * b)) .position .position .position = some .arithmeticOverflow := by decide

theorem witness_LessThanWritesTheTruth :
    let s := bootLim 6 [1107, MIN, MAX, 5]
    let f := bootLim 6 [1107, 3, 8, -1]
    (1107 % 100 = 7) ∧ s.source 1 .immediate = some MIN ∧ s.source 2 .immediate = some MAX ∧
      s.dest 3 .position = some 5 ∧
      f.threeFault (fun _ _ => some 0) .immediate .immediate .position = some .negativeAddress := by decide

theorem witness_EqualsWritesTheTruth :
    let s := bootLim 6 [1108, 8, 8, 5]
    (1108 % 100 = 8) ∧ s.source 1 .immediate = some 8 ∧ s.source 2 .immediate = some 8 ∧ s.dest 3 .position = some 5 ∧
      s.threeFault (fun _ _ => some 0) .immediate .immediate .immediate = some .invalidParameterMode := by decide

theorem witness_JumpIfTrueJumps :
    let s := boot [1105, -1, 0]
    let n := boot [1105, 1, -1]
    let z := boot [1105, 0, -1]
    (1105 % 100 = 5) ∧ s.source 1 .immediate = some (-1) ∧ s.source 2 .immediate = some 0 ∧
      n.source 1 .immediate = some 1 ∧ n.source 2 .immediate = some (-1) ∧ z.source 1 .immediate = some 0 ∧
      z.source 2 .immediate = some (-1) ∧ z.twoFault .immediate .position = some .negativeAddress := by decide

theorem witness_JumpIfFalseJumps :
    let s := boot [1106, 0, 0]
    let n := boot [1106, 0, -1]
    let z := boot [1106, -1, -1]
    (1106 % 100 = 6) ∧ s.source 1 .immediate = some 0 ∧ s.source 2 .immediate = some 0 ∧
      n.source 1 .immediate = some 0 ∧ n.source 2 .immediate = some (-1) ∧ z.source 1 .immediate = some (-1) ∧
      z.source 2 .immediate = some (-1) ∧ z.twoFault (.invalid 9) .immediate = some .invalidParameterMode := by decide

theorem witness_JumpTargetIsCheckedWhereItIsUsed :
    let t (b : Int) := bootLim 20 [1105, -7, b]
    let f (b : Int) := bootLim 20 [1006, 5, b]
    ∀ b ∈ [(-1 : Int), 0, 2, 3, 19, 20],
      ((t b).mem.wf ∧ (t b).run = .running ∧ (t b).source 1 .immediate = some (-7) ∧ (t b).source 2 .immediate = some b ∧
        JumpTaken (.jumpIfTrue .immediate .immediate) .immediate .immediate (-7)) ∧
      ((f b).mem.wf ∧ (f b).run = .running ∧ (f b).source 1 .position = some 0 ∧ (f b).source 2 .immediate = some b ∧
        JumpTaken (.jumpIfFalse .position .immediate) .position .immediate 0) ∧
      ¬ JumpTaken (.jumpIfTrue .position .immediate) .position .immediate 0 ∧
      ¬ JumpTaken (.jumpIfFalse .immediate .immediate) .immediate .immediate (-7) := by decide

theorem witness_AdjustRelBaseAdds :
    let s := bootRel (MAX - 1) [109, 1]
    let f := bootRel MAX [109, 1]
    (109 % 100 = 9) ∧ s.cfg.relEn = true ∧ s.source 1 .immediate = some 1 ∧ narrow s.cfg (s.relBase + 1) = some MAX ∧
      f.cfg.relEn = true ∧ f.source 1 .immediate = some 1 ∧ narrow f.cfg (f.relBase + 1) = none ∧
      f.sourceFault 1 .relative = some .arithmeticOverflow := by decide

theorem witness_WithoutRelEnNothingIsRelative :
    let s := bootNoRel [209, 1]
    s.cfg.relEn = false ∧ (209 % 100 = 9) ∧ s.run = .running ∧ s.ip < s.cfg.addrLimit ∧ s.mem.cell s.ip = (209 : Nat) ∧
      (after (exec .halt s)).isSome = true := by decide

theorem witness_InputStoresTheAnswer :
    let s := bootLim 6 [3, 5]
    let f := bootLim 6 [3, 6]
    (203 % 100 = 3) ∧ s.inputDest = some 5 ∧ { s with inputs := [.value MIN] }.inputs = .value MIN :: [] ∧
      InCell s.cfg MIN ∧ { s with inputs := [.value (MIN - 1)] }.inputs = .value (MIN - 1) :: [] ∧
      ¬ InCell s.cfg (MIN - 1) ∧ s.inputs = .exhausted :: [] ∧
      { s with inputs := [.transportError] }.inputs = .transportError :: [] ∧
      { s with inputs := [.parseError] }.inputs = .parseError :: [] ∧
      f.destFault 1 .position = some .addressOutOfRange := by decide

theorem witness_InputHoldsUntilTheAnswer :
    let s := bootLim 6 [3, 5] []
    s.Inv ∧ s.run = .running ∧ s.ip < s.cfg.addrLimit ∧ decode (s.mem.cell s.ip) = .input ∧ s.inputDest = some 5 ∧
      s.inputs = [] ∧ InCell s.cfg MAX ∧ ¬ InCell s.cfg (MAX + 1) :=
  ⟨by constructor <;> decide, by decide, by decide, by decide, by decide, by decide, by decide, by decide⟩

theorem witness_InputIgnoresItsModeDigit :
    let s := bootLim 6 [203, 5] [.value 42]
    s.run = .running ∧ s.mem.cell s.ip = (203 : Nat) ∧ 203 % 100 = 3 ∧ s.ip + 1 < s.cfg.addrLimit ∧
      s.mem.cell (s.ip + 1) = (5 : Nat) ∧ 5 < s.cfg.addrLimit ∧ s.inputs = .value 42 :: [] ∧ InCell s.cfg 42 := by decide

theorem witness_OutputDeliversTheValue :
    let s := bootLim 6 [4, 5]
    (104 % 100 = 4) ∧ s.source 1 .position = some 0 ∧ s.sink = [] ∧
      { s with sink := [.accepted] }.sink = .accepted :: [] ∧
      { s with sink := [.transportError true] }.sink = .transportError true :: [] ∧
      s.sourceFault 1 (.invalid 3) = some .invalidParameterMode := by decide

theorem witness_HaltHalts : 10099 % 100 = 99 := by decide

theorem witness_OtherOpcodesRaiseInvalidOpCode :
    let s (w : Nat) := boot [(w : Int)]
    let n := bootNoRel [9]
    (∀ w ∈ [0, 100, 10, 98, 398], (w % 100 = 0 ∨ (10 ≤ w % 100 ∧ w % 100 ≤ 98)) ∧ (s w).run = .running ∧
      (s w).ip < (s w).cfg.addrLimit ∧ (s w).mem.cell (s w).ip = (w : Nat)) ∧
    n.run = .running ∧ n.ip < n.cfg.addrLimit ∧ n.mem.cell n.ip = (9 : Nat) ∧ 9 % 100 = 9 ∧ n.cfg.relEn = false := by
  decide

theorem witness_NegativeWordRaisesInvalidOpCode :
    let s := boot [-1]
    (-1 : Int) < 0 ∧ s.run = .running ∧ s.ip < s.cfg.addrLimit ∧ s.mem.cell s.ip < 0 := by decide

theorem witness_ThreeOperandFrame :
    let s := bootLim 6 [1101, 1, 1, 5]
    (∃ t, exec (.add .immediate .immediate .position) s = .next t ∧ (t.mem.cell 5 == 2) = true) ∧
      storeAddress .immediate .immediate .position s = some 5 ∧ storeAddress .immediate .immediate .immediate s = none :=
  ⟨next_of_after (by decide), by decide, by decide⟩

theorem witness_InputFrame :
    let s := bootLim 6 [3, 5] [.value 7]
    let f := bootLim 6 [3, 6] [.value 7]
    (∃ t, exec .input s = .next t ∧ (t.mem.cell 5 == 7) = true) ∧ inputStoreAddress s = some 5 ∧
      (∃ t, exec .input f = .next t ∧ decide (t.run = .failed) = true) ∧ inputStoreAddress f = none :=
  ⟨next_of_after (by decide), by decide, next_of_after (by decide), by decide⟩

theorem witness_OutputFrame :
    ∃ t, exec (.output .immediate) (boot [104, 7]) = .next t ∧ decide (t.outputs = [7]) = true :=
  next_of_after (by decide)

theorem witness_JumpAndHaltFrame :
    (∃ t, exec (.jumpIfTrue .immediate .immediate) (boot [1105, 1, 0]) = .next t ∧ (t.ip == 0) = true) ∧
      ∃ t, exec .halt (boot [99]) = .next t ∧ decide (t.run = .halted) = true :=
  ⟨next_of_after (by decide), next_of_after (by decide)⟩

theorem witness_AdjustRelBaseFrame :
    ∃ t, exec (.adjustRelBase .immediate) (boot [109, -1]) = .next t ∧ (t.relBase == -1) = true :=
  next_of_after (by decide)

theorem witness_FaultsArePrecise :
    let s := boot [1005, 50, -1, 99]
    let f := boot [105, 1, -1]
    s.run = .running ∧ (∃ t, step f = .next t ∧ decide (t.run = .failed) = true) ∧
      ∃ t, step s = .next t ∧ (decide (t.run = .running) && t.mem.len == 51) = true :=
  ⟨by decide, next_of_after (by decide), next_of_after (by decide)⟩

theorem witness_WhichInstructionRaisesWhichFault :
    let raises (i : Instr) (s : State) (k : ErrKind) :=
      s.run = .running ∧ ∃ t, exec i s = .next t ∧ decide (t.run = .failed ∧ t.err = some k) = true
    raises (.illegalOpcode 0) (boot [0]) .invalidOpCode ∧
      raises (.adjustRelBase .immediate) (bootNoRel [109, 1]) .invalidOpCode ∧
      raises (.output (.invalid 3)) (boot [304, 5]) .invalidParameterMode ∧
      raises (.equals .immediate .immediate .immediate) (boot [11108]) .invalidParameterMode ∧
      raises .input (boot [3, 5]) .missingInput ∧
      raises .input (boot [3, 5] [.value (MAX + 1)]) .ioParseFailure ∧
      raises (.output .immediate) (bootSink [.transportError false] [104, 1]) .ioTransportFailure ∧
      raises .input (boot [3, -1]) .negativeAddress ∧
      raises (.jumpIfFalse .immediate .immediate) (boot [1106, 0, -1]) .negativeAddress ∧
      raises (.output .position) (boot [4, -1]) .negativeAddress ∧
      raises (.output .immediate) (bootLim 1 [104]) .addressOutOfRange ∧
      raises (.add .immediate .immediate .position) (boot [1101, MAX, 1, 5]) .arithmeticOverflow ∧
      raises (.output .relative) (bootRel MAX [204, 1]) .arithmeticOverflow := by
  refine ⟨⟨?_, next_of_after ?_⟩, ⟨?_, next_of_after ?_⟩, ⟨?_, next_of_after ?_⟩, ⟨?_, next_of_after ?_⟩,
    ⟨?_, next_of_after ?_⟩, ⟨?_, next_of_after ?_⟩, ⟨?_, next_of_after ?_⟩, ⟨?_, next_of_after ?_⟩,
    ⟨?_, next_of_after ?_⟩, ⟨?_, next_of_after ?_⟩, ⟨?_, next_of_after ?_⟩, ⟨?_, next_of_after ?_⟩,
    ⟨?_, next_of_after ?_⟩⟩ <;> decide

theorem witness_OnlyAdjustRelBaseChangesRelBase :
    ∃ t, step (boot [109, 7]) = .next t ∧ decide (t.relBase ≠ (boot [109, 7]).relBase) = true :=
  next_of_after (by decide)

theorem witness_OnlyHaltEndsARunWell :
    (∃ t, step (boot [99]) = .next t ∧ decide (t.run = .halted) = true) ∧
      ∃ t, step (boot [0]) = .next t ∧ decide (t.run = .failed) = true :=
  ⟨next_of_after (by decide), next_of_after (by decide)⟩

theorem witness_OnlyInputAndOutputUseThePorts :
    (∃ t, step (boot [3, 5] [.value 7]) = .next t ∧ decide (t.inputs = []) = true) ∧
      ∃ t, step (bootSink [.accepted] [104, 7]) = .next t ∧ decide (t.outputs = [7] ∧ t.sink = []) = true :=
  ⟨next_of_after (by decide), next_of_after (by decide)⟩

theorem witness_StepKeepsParametersAndNeverShrinksTheTape :
    ∃ t, step (bootLim 6 [4, 5]) = .next t ∧ (t.mem.len == 6) = true :=
  next_of_after (by decide)

theorem witness_TapeLengthIsInvisibleToThePrograms :
    (∃ t, step (boot [4, 50]) = .next t ∧ (t.mem.len == 51) = true) ∧
      step { boot [] with run := .halted } = .fault .halted :=
  ⟨next_of_after (by decide), rfl⟩

theorem witness_StoreIsSeenByTheNextFetch :
    let s := boot [1101, 0, 99, 4, 5]
    s.run = .running ∧ s.source 1 .immediate = some 0 ∧ s.source 2 .immediate = some 99 ∧
      s.dest 3 .position = some (s.ip + 4) ∧ narrow s.cfg (0 + 99) = some 99 := by decide

theorem witness_StepKeepsTheInvariant :
    (bootLim 6 [1101, 1, 1, 5]).Inv ∧
      ∃ t, step (bootLim 6 [1101, 1, 1, 5]) = .next t ∧ (t.mem.cell 5 == 2) = true :=
  ⟨by constructor <;> decide, next_of_after (by decide)⟩

theorem witness_EveryReachableStateMeetsTheInvariant :
    ∃ s t, State.launch ⟨Config.hardware, [3, 5], [], [], []⟩ = some s ∧ Reaches s t ∧ t.err = some .ioParseFailure :=
  ⟨boot [3, 5] [], _, by decide, .step (.answer (.value (MAX + 1)) (.step (.here _) rfl)) rfl, rfl⟩

theorem witness_ResetSetsFourRegisters :
    (boot []).run = .running ∧ State.ended { boot [] with run := .halted } ∧
      State.ended ((boot []).raise .invalidOpCode) := by decide

theorem witness_LaunchLoadsTheImage :
    Launch.ok ⟨⟨64, 2, .fault, true⟩, [MIN, MAX], [.value MAX], [], []⟩ ∧
      ¬ Launch.ok ⟨⟨64, 2, .fault, true⟩, [1, 2, 3], [], [], []⟩ ∧
      ¬ Launch.ok ⟨Config.hardware, [MAX + 1], [], [], []⟩ ∧ ¬ Launch.ok ⟨⟨63, 2, .fault, true⟩, [1], [], [], []⟩ := by
  decide

theorem witness_PortInReturnsOnlyCells :
    let s (a : InAnswer) := boot [3, 5] [a]
    InCell (s .exhausted).cfg MAX ∧ ¬ InCell (s .exhausted).cfg (MAX + 1) ∧ (s .exhausted).Inv ∧
      portIn (s (.value MAX)) = some (.value MAX, boot [3, 5] []) ∧
      ∀ a ∈ [InAnswer.value MAX, .value (MAX + 1), .exhausted, .transportError, .parseError],
        (s a).inputs = a :: [] ∧ (portIn (s a)).isSome = true :=
  ⟨by decide, by decide, by constructor <;> decide, by decide, by decide⟩

end Sys2Proof.Tests
end

section
/-! PROOFS. The length of the tape is invisible (10_state.md R25 (a)): every part of an instruction, started in two
states that differ in nothing but the length, gives the same value or the same fault, in two such states again. -/

namespace Sys2Proof.Machine

/-- The state with the tape declared `n` cells long, its cells as they were. -/
def State.withLen (s : State) (n : Nat) : State := { s with mem := { s.mem with len := n } }

@[simp] theorem State.withLen_cfg (s : State) (n : Nat) : (s.withLen n).cfg = s.cfg := rfl
@[simp] theorem State.withLen_run (s : State) (n : Nat) : (s.withLen n).run = s.run := rfl
@[simp] theorem State.withLen_inputs (s : State) (n : Nat) : (s.withLen n).inputs = s.inputs := rfl
@[simp] theorem State.withLen_sink (s : State) (n : Nat) : (s.withLen n).sink = s.sink := rfl

theorem State.withLen_growTo (s : State) (n k : Nat) : (s.withLen n).growTo k = (s.growTo k).withLen (max n k) := by
  simp [State.withLen, State.growTo, Memory.growTo_eq]

theorem State.withLen_store (s : State) (n a : Nat) (v : Int) :
    (s.withLen n).store a v = (s.store a v).withLen (max n (a + 1)) := by
  simp [State.withLen, State.store, Memory.store]

/-- Two attempts with the same value or the same fault, in states that differ in nothing but the length of the tape. -/
inductive Attempt.SameButLength {α : Type} : Attempt α → Attempt α → Prop
  | ok (v : α) (s : State) (n : Nat) : SameButLength (.ok v s) (.ok v (s.withLen n))
  | raised (s : State) (n : Nat) : SameButLength (.raised s) (.raised (s.withLen n))

/-- Two outcomes that differ in nothing but the length of the tape. -/
def SameOutcomeButLength : Host.Outcome State Fault Refusal → Host.Outcome State Fault Refusal → Prop
  | .next s, o => ∃ n, o = .next (s.withLen n)
  | .fault f, o => o = .fault f
  | .refused r, o => o = .refused r

/-- A part of an instruction that does not see the length of the tape. -/
def LengthBlind {α : Type} (f : State → Attempt α) : Prop := ∀ s n, (f s).SameButLength (f (s.withLen n))

theorem Attempt.SameButLength.andThen {α β : Type} {x y : Attempt α} {g : α → State → Attempt β}
    (h : x.SameButLength y) (hg : ∀ v, LengthBlind (g v)) : (x.andThen g).SameButLength (y.andThen g) := by
  cases h with
  | ok v s n => exact hg v s n
  | raised s n => exact .raised s n

theorem LengthBlind.andThen {α β : Type} {f : State → Attempt α} {g : α → State → Attempt β} (hf : LengthBlind f)
    (hg : ∀ v, LengthBlind (g v)) : LengthBlind fun s => (f s).andThen g :=
  fun s n => (hf s n).andThen hg

/-- A choice by the parameters is a choice that does not see the length. -/
theorem LengthBlind.ite {α : Type} {f g : State → Attempt α} (p : Config → Bool) (hf : LengthBlind f)
    (hg : LengthBlind g) : LengthBlind fun s => if p s.cfg then f s else g s := fun s n => by
  show Attempt.SameButLength (if p s.cfg then f s else g s) (if p s.cfg then f (s.withLen n) else g (s.withLen n))
  by_cases hp : p s.cfg = true
  · rw [if_pos hp, if_pos hp]
    exact hf s n
  · rw [if_neg hp, if_neg hp]
    exact hg s n

theorem Attempt.SameButLength.outcome {x y : Attempt Unit} (h : x.SameButLength y) :
    SameOutcomeButLength x.outcome y.outcome := by
  cases h with
  | ok v s n => exact ⟨n, rfl⟩
  | raised s n => exact ⟨n, rfl⟩

/-! ## The operations -/

theorem lengthBlind_raise {α : Type} (e : ErrKind) : LengthBlind fun s => (.raised (s.raise e) : Attempt α) :=
  fun s n => .raised (s.raise e) n

theorem lengthBlind_advance (w : Nat) : LengthBlind fun s => .ok () (s.advance w) :=
  fun s n => .ok () (s.advance w) n

theorem checkAddr_lengthBlind (a : Int) : LengthBlind (checkAddr a) := fun s n => by
  rw [checkAddr_eq, checkAddr_eq, State.withLen_cfg]
  cases addrFault s.cfg a with
  | some e => exact .raised (s.raise e) n
  | none => exact .ok a.toNat s n

theorem memRead_lengthBlind (a : Int) : LengthBlind (memRead a) :=
  (checkAddr_lengthBlind a).andThen fun a s n => by
    rw [State.withLen_growTo]
    exact .ok _ _ _

theorem memWrite_lengthBlind (a v : Int) : LengthBlind (memWrite a v) :=
  (checkAddr_lengthBlind a).andThen fun a s n => by
    rw [State.withLen_store]
    exact .ok _ _ _

theorem toCell_lengthBlind (v : Int) : LengthBlind (toCell v) := fun s n => by
  unfold toCell
  rw [State.withLen_cfg]
  cases narrow s.cfg v with
  | some r => exact .ok r s n
  | none => exact .raised _ n

theorem raw_lengthBlind (k : Nat) : LengthBlind (raw k) := fun s n => memRead_lengthBlind _ s n

theorem relativeAddr_lengthBlind (k : Nat) : LengthBlind (relativeAddr k) :=
  (raw_lengthBlind k).andThen fun _ s n => toCell_lengthBlind _ s n

theorem readOperand_lengthBlind (k : Nat) (m : Mode) : LengthBlind (readOperand k m) := by
  cases m with
  | position => exact (raw_lengthBlind k).andThen memRead_lengthBlind
  | immediate => exact raw_lengthBlind k
  | relative =>
    exact .ite (·.relEn) ((relativeAddr_lengthBlind k).andThen memRead_lengthBlind) (lengthBlind_raise _)
  | invalid d => exact lengthBlind_raise _

theorem writeAddr_lengthBlind (k : Nat) (m : Mode) : LengthBlind (writeAddr k m) := by
  cases m with
  | position => exact (raw_lengthBlind k).andThen checkAddr_lengthBlind
  | immediate => exact lengthBlind_raise _
  | relative =>
    exact .ite (·.relEn) ((relativeAddr_lengthBlind k).andThen checkAddr_lengthBlind) (lengthBlind_raise _)
  | invalid d => exact lengthBlind_raise _

theorem portIn_withLen (s : State) (n : Nat) : portIn (s.withLen n) = (portIn s).map fun p => (p.1, p.2.withLen n) := by
  unfold portIn
  rw [State.withLen_inputs]
  split <;> rfl

theorem portOut_withLen (v : Int) (s : State) (n : Nat) :
    portOut v (s.withLen n) = ((portOut v s).1, (portOut v s).2.withLen n) := by
  unfold portOut
  rw [State.withLen_sink]
  split <;> rfl

/-! ## The instructions -/

theorem threeOperand_lengthBlind {op : Int → Int → State → Attempt Int} (hop : ∀ a b, LengthBlind (op a b))
    (m1 m2 m3 : Mode) : LengthBlind (threeOperand op m1 m2 m3) :=
  (readOperand_lengthBlind 1 m1).andThen fun a => (readOperand_lengthBlind 2 m2).andThen fun b =>
    (writeAddr_lengthBlind 3 m3).andThen fun d => (hop a b).andThen fun v =>
    (memWrite_lengthBlind d v).andThen fun _ => lengthBlind_advance 4

theorem jumpTo_lengthBlind (target : Int) : LengthBlind (jumpTo target) := fun s n => by
  unfold jumpTo
  split
  · exact lengthBlind_raise _ s n
  · exact .ok () (s.jump _) n

theorem conditionalJump_lengthBlind (taken : Int → Bool) (m1 m2 : Mode) :
    LengthBlind (conditionalJump taken m1 m2) :=
  (readOperand_lengthBlind 1 m1).andThen fun a => (readOperand_lengthBlind 2 m2).andThen fun b => by
    split
    · exact jumpTo_lengthBlind b
    · exact lengthBlind_advance 3

theorem storeInput_lengthBlind (d : Nat) (a : InAnswer) : LengthBlind (storeInput d a) := by
  cases a with
  | value v => exact (memWrite_lengthBlind d v).andThen fun _ => lengthBlind_advance 2
  | exhausted => exact lengthBlind_raise _
  | transportError => exact lengthBlind_raise _
  | parseError => exact lengthBlind_raise _

theorem afterOutput_lengthBlind (a : OutAnswer) : LengthBlind (afterOutput a) := by
  cases a with
  | accepted => exact lengthBlind_advance 2
  | transportError b => exact lengthBlind_raise _

theorem execInput_sameButLength (s : State) (n : Nat) :
    SameOutcomeButLength (execInput s) (execInput (s.withLen n)) := by
  have h : (inputAddr s).SameButLength (inputAddr (s.withLen n)) := writeAddr_lengthBlind 1 .position s n
  unfold execInput
  generalize inputAddr s = x, inputAddr (s.withLen n) = y at h
  cases h with
  | raised t k => exact ⟨k, rfl⟩
  | ok d t k =>
    simp only [portIn_withLen]
    cases portIn t with
    | none => exact ⟨n, rfl⟩
    | some p => exact (storeInput_lengthBlind d p.1 p.2 k).outcome

theorem output_lengthBlind (m1 : Mode) :
    LengthBlind fun s => (readOperand 1 m1 s).andThen fun a s => afterOutput (portOut a s).1 (portOut a s).2 :=
  (readOperand_lengthBlind 1 m1).andThen fun a s n => by
    rw [portOut_withLen]
    exact afterOutput_lengthBlind _ _ n

theorem adjust_lengthBlind (m1 : Mode) : LengthBlind fun s => (readOperand 1 m1 s).andThen fun a s =>
    (aluAdd s.relBase a s).andThen fun v s => .ok () ((s.setRelBase v).advance 2) :=
  (readOperand_lengthBlind 1 m1).andThen fun a s n =>
    (toCell_lengthBlind (s.relBase + a) s n).andThen fun v t k => .ok () ((t.setRelBase v).advance 2) k

theorem execAdjustRelBase_sameButLength (m1 : Mode) (s : State) (n : Nat) :
    SameOutcomeButLength (execAdjustRelBase m1 s) (execAdjustRelBase m1 (s.withLen n)) := by
  unfold execAdjustRelBase
  rw [State.withLen_cfg]
  by_cases hen : s.cfg.relEn = true
  · rw [if_pos hen, if_pos hen]
    exact (adjust_lengthBlind m1 s n).outcome
  · rw [if_neg hen, if_neg hen]
    exact ⟨n, rfl⟩

theorem exec_sameButLength (i : Instr) (s : State) (n : Nat) :
    SameOutcomeButLength (exec i s) (exec i (s.withLen n)) := by
  cases i with
  | add m1 m2 m3 => exact (threeOperand_lengthBlind (fun _ _ => toCell_lengthBlind _) m1 m2 m3 s n).outcome
  | mul m1 m2 m3 => exact (threeOperand_lengthBlind (fun _ _ => toCell_lengthBlind _) m1 m2 m3 s n).outcome
  | lessThan m1 m2 m3 => exact (threeOperand_lengthBlind (fun a b s n => .ok (aluLt a b) s n) m1 m2 m3 s n).outcome
  | equals m1 m2 m3 => exact (threeOperand_lengthBlind (fun a b s n => .ok (aluEq a b) s n) m1 m2 m3 s n).outcome
  | input => exact execInput_sameButLength s n
  | output m1 => exact (output_lengthBlind m1 s n).outcome
  | jumpIfTrue m1 m2 => exact (conditionalJump_lengthBlind _ m1 m2 s n).outcome
  | jumpIfFalse m1 m2 => exact (conditionalJump_lengthBlind _ m1 m2 s n).outcome
  | adjustRelBase m1 => exact execAdjustRelBase_sameButLength m1 s n
  | halt => exact ⟨n, rfl⟩
  | illegalOpcode op => exact ⟨n, rfl⟩
  | negativeWord w => exact ⟨n, rfl⟩

theorem step_sameButLength (s : State) (n : Nat) : SameOutcomeButLength (step s) (step (s.withLen n)) := by
  unfold step
  rw [State.withLen_run]
  cases s.run with
  | halted => rfl
  | failed => rfl
  | running =>
    have h : (fetch s).SameButLength (fetch (s.withLen n)) := memRead_lengthBlind s.ip s n
    generalize fetch s = x, fetch (s.withLen n) = y at h
    cases h with
    | ok word t k => exact exec_sameButLength (decode word) t k
    | raised t k => exact ⟨k, rfl⟩

/-- Settles O48: no operation of the machine sees the length of the tape, so no step does. -/
theorem tapeLengthIsInvisibleToThePrograms : Obligations.TapeLengthIsInvisibleToThePrograms := by
  intro s n
  have h := step_sameButLength s n
  refine ⟨fun t ht => ?_, fun f hf => ?_⟩
  · rw [ht] at h
    exact h
  · rw [hf] at h
    exact h

end Sys2Proof.Machine
end

section
/-! PROOFS. A whole step keeps the parameters, and the tape grows up to `ADDR_LIMIT` (10_state.md R28 and R29). -/

namespace Sys2Proof.Machine

theorem Attempt.GrowsFrom.of_grows {α : Type} {s u : State} {x : Attempt α} (hx : x.GrowsFrom u) (h : Grows s u) :
    x.GrowsFrom s := by
  cases x <;> exact h.trans hx

theorem storeInput_grows (d : Nat) (a : InAnswer) (s : State) : (storeInput d a s).GrowsFrom s := by
  cases a with
  | value v => exact (memWrite_grows d v s).andThen fun _ t => Grows.refl t
  | exhausted => exact Grows.refl s
  | transportError => exact Grows.refl s
  | parseError => exact Grows.refl s

theorem afterOutput_grows (a : OutAnswer) (s : State) : (afterOutput a s).GrowsFrom s := by
  cases a <;> exact Grows.refl s

theorem portIn_grows {s t : State} {a : InAnswer} (h : portIn s = some (a, t)) : Grows s t := by
  obtain ⟨first, rest, -, -, rfl⟩ := portIn_some h
  exact Grows.refl s

theorem portOut_grows (v : Int) (s : State) : Grows s (portOut v s).2 := by
  rcases portOut_cases v s with ⟨rest, h, -⟩ | ⟨rest, b, h, -⟩ <;> rw [h] <;> exact Grows.refl s

theorem execInput_grows {s t : State} (h : execInput s = .next t) : Grows s t := by
  have hd := inputAddr_grows s
  unfold execInput at h
  generalize inputAddr s = x at h hd
  cases x with
  | raised u =>
    cases h
    exact hd
  | ok d u =>
    cases hp : portIn u with
    | none =>
      simp only [hp] at h
      cases h
      exact Grows.refl s
    | some p =>
      simp only [hp] at h
      exact (hd.trans (portIn_grows hp)).trans ((storeInput_grows d p.1 p.2).outcome h)

theorem execOutput_grows {s t : State} {m1 : Mode} (h : execOutput m1 s = .next t) : Grows s t :=
  Attempt.GrowsFrom.outcome ((readOperand_grows 1 m1 s).andThen fun a t =>
    (afterOutput_grows (portOut a t).1 (portOut a t).2).of_grows (portOut_grows a t)) h

theorem execAdjustRelBase_grows {s t : State} {m1 : Mode} (h : execAdjustRelBase m1 s = .next t) : Grows s t := by
  unfold execAdjustRelBase at h
  split at h
  · refine Attempt.GrowsFrom.outcome ((readOperand_grows 1 m1 s).andThen fun a t => ?_) h
    exact (toCell_grows (t.relBase + a) t).andThen fun v u => Grows.refl u
  · cases h
    exact Grows.refl s

theorem exec_grows {i : Instr} {s t : State} (h : exec i s = .next t) : Grows s t := by
  cases i with
  | add m1 m2 m3 => exact (threeOperand_grows (fun _ _ => toCell_grows _) m1 m2 m3 s).outcome h
  | mul m1 m2 m3 => exact (threeOperand_grows (fun _ _ => toCell_grows _) m1 m2 m3 s).outcome h
  | lessThan m1 m2 m3 =>
    exact (threeOperand_grows (op := fun a b s => .ok (aluLt a b) s) (fun _ _ => Grows.refl) m1 m2 m3 s).outcome h
  | equals m1 m2 m3 =>
    exact (threeOperand_grows (op := fun a b s => .ok (aluEq a b) s) (fun _ _ => Grows.refl) m1 m2 m3 s).outcome h
  | input => exact execInput_grows h
  | output m1 => exact execOutput_grows h
  | jumpIfTrue m1 m2 => exact (conditionalJump_grows _ m1 m2 s).outcome h
  | jumpIfFalse m1 m2 => exact (conditionalJump_grows _ m1 m2 s).outcome h
  | adjustRelBase m1 => exact execAdjustRelBase_grows h
  | halt => cases h; exact Grows.refl s
  | illegalOpcode op => cases h; exact Grows.refl s
  | negativeWord w => cases h; exact Grows.refl s

/-- Settles O47: the fetch grows the tape to include `ip` at most, and the instruction grows it within the limit. -/
theorem stepKeepsParametersAndNeverShrinksTheTape : Obligations.StepKeepsParametersAndNeverShrinksTheTape := by
  intro s t h
  obtain ⟨-, ⟨hip, hx⟩ | ⟨-, rfl⟩⟩ := step_cases h
  · exact (Grows.growTo hip).trans (exec_grows hx)
  · exact Grows.refl s

end Sys2Proof.Machine
end

section
/-! PROOFS. The invariant (10_state.md R29): each update of the state keeps it under the condition it needs, and so does
every instruction and every step. -/

namespace Sys2Proof.Machine

/-! ## The updates -/

theorem State.Inv.growTo {s : State} (h : s.Inv) {n : Nat} (hn : n ≤ s.cfg.addrLimit) : (s.growTo n).Inv where
  __ := h
  memWf := Memory.growTo_wf n h.memWf
  lenLe := by
    have := h.lenLe
    simp only [State.growTo_mem, Memory.growTo_len, State.growTo_cfg]
    omega
  cellsIn := by
    rw [State.growTo_mem, Memory.growTo_cells]
    exact h.cellsIn

theorem State.Inv.store {s : State} (h : s.Inv) {a : Nat} {v : Int} (ha : a < s.cfg.addrLimit) (hv : InCell s.cfg v) :
    (s.store a v).Inv where
  __ := h
  memWf := Memory.store_wf a v h.memWf
  lenLe := by
    have := h.lenLe
    simp only [State.store_mem, Memory.store_len, State.store_cfg]
    omega
  cellsIn := setCell_inCell h.cellsIn hv a

theorem State.Inv.raise {s : State} (h : s.Inv) (e : ErrKind) : (s.raise e).Inv where
  __ := h
  errNone := by simp

theorem State.Inv.jump {s : State} (h : s.Inv) {target : Nat} (ht : target < 2 ^ s.cfg.xlen) :
    (s.jump target).Inv where
  __ := h
  ipLt := ht

theorem State.Inv.setRelBase {s : State} (h : s.Inv) {v : Int} (hen : s.cfg.relEn = true) (hv : InCell s.cfg v) :
    (s.setRelBase v).Inv where
  __ := h
  relBaseIn := hv
  relBaseZero := fun hf => by simp [hen] at hf

theorem State.Inv.record {s : State} (h : s.Inv) {v : Int} (hv : InCell s.cfg v) : (s.record v).Inv where
  __ := h
  outputsIn := fun w hw => by
    rcases List.mem_append.mp hw with hw | hw
    · exact h.outputsIn w hw
    · rw [List.mem_singleton.mp hw]
      exact hv

theorem State.Inv.withSink {s : State} (h : s.Inv) (sink : List OutAnswer) : State.Inv { s with sink := sink } where
  __ := h

/-- Taking the first answer off the source. -/
theorem State.Inv.takeInput {s : State} (h : s.Inv) {first : InAnswer} {rest : List InAnswer}
    (hin : s.inputs = first :: rest) : State.Inv { s with inputs := rest } where
  __ := h
  inputsIn := fun a ha => h.inputsIn a (by simp [hin, ha])

theorem State.Inv.answer {s : State} (h : s.Inv) (a : InAnswer) : (s.answer a).Inv where
  __ := h
  inputsIn := fun b hb => by
    rcases List.mem_append.mp hb with hb | hb
    · exact h.inputsIn b hb
    · rw [List.mem_singleton.mp hb]
      exact a.delivered_inRange s.cfg

theorem State.Inv.halt {s : State} (h : s.Inv) (hr : s.run = .running) : State.Inv { s with run := .halted } where
  __ := h
  errNone := by simp [h.errNone, hr]

/-- A precise fault keeps the invariant, as long as the tape stays within the limit. -/
theorem State.Inv.faulted {s t : State} {e : ErrKind} (h : s.Inv) (hf : FaultedWith e s t) (hg : Grows s t) :
    t.Inv := by
  obtain ⟨-, -, hlim⟩ := hg
  obtain ⟨n, hn, rfl⟩ := hf
  have hlen : n ≤ s.cfg.addrLimit := hlim.trans (max_le h.lenLe le_rfl)
  exact { (h.growTo hlen).raise e with
    memWf := ⟨h.memWf.1, fun p hp => ⟨(h.memWf.2 p hp).1, (h.memWf.2 p hp).2.trans_le hn⟩⟩
    lenLe := hlen
    cellsIn := h.cellsIn }

/-! ## The bounds -/

/-- The instruction pointer stays far below `2^XLEN` when it moves past an instruction that was fetched. -/
theorem add_four_lt_of_wf {c : Config} (h : c.wf) {a : Nat} (ha : a < c.addrLimit) : a + 4 < 2 ^ c.xlen := by
  obtain ⟨hx, -, hlim⟩ := h
  obtain ⟨n, hn⟩ : ∃ n, c.xlen = n + 1 := ⟨c.xlen - 1, by omega⟩
  have h4 : 2 ^ 2 ≤ 2 ^ n := Nat.pow_le_pow_right (by omega) (by omega)
  rw [hn, Nat.add_sub_cancel] at hlim
  rw [hn, pow_succ]
  omega

/-- A cell that is not negative is a possible instruction pointer. -/
theorem toNat_lt_of_inCell {c : Config} {v : Int} (h : InCell c v) : v.toNat < 2 ^ c.xlen := by
  have hle : 2 ^ (c.xlen - 1) ≤ 2 ^ c.xlen := Nat.pow_le_pow_right (by omega) (by omega)
  have hpos := Nat.two_pow_pos (c.xlen - 1)
  obtain ⟨-, hmax⟩ := h
  unfold cellMax at hmax
  omega

theorem State.Inv.advance {s : State} (h : s.Inv) (hip : s.ip < s.cfg.addrLimit) {w : Nat} (hw : w ≤ 4) :
    (s.advance w).Inv :=
  h.jump (by have := add_four_lt_of_wf h.cfgWf hip; omega)

/-- Resolving a source parameter touches no cell beyond the limit. -/
theorem reach_le {s : State} {k : Nat} {m : Mode} {v : Int} (h : s.source k m = some v) :
    s.reach k m ≤ s.cfg.addrLimit := by
  have hk := source_some h
  refine max_le hk ?_
  cases ha : s.operandAddr k m with
  | none => exact Nat.zero_le _
  | some a => exact (operandAddr_some ha).2

theorem aluLt_inCell {c : Config} (h : c.wf) (x y : Int) : InCell c (aluLt x y) := by
  unfold aluLt truthCell
  split
  · exact inCell_one h
  · exact inCell_zero c

theorem aluEq_inCell {c : Config} (h : c.wf) (x y : Int) : InCell c (aluEq x y) := by
  unfold aluEq truthCell
  split
  · exact inCell_one h
  · exact inCell_zero c

theorem resultOf_inCell {c : Config} (h : c.wf) {i : Instr} {a b v : Int} (hv : resultOf c i a b = some v) :
    InCell c v := by
  unfold resultOf at hv
  split at hv
  · exact narrow_some_inCell h hv
  · exact narrow_some_inCell h hv
  · cases hv
    exact aluLt_inCell h a b
  · cases hv
    exact aluEq_inCell h a b
  · cases hv

/-- The state a format `RRW` instruction completes in, as its updates in their order. -/
theorem afterWrite_eq (s : State) (m1 m2 : Mode) (d : Nat) (v : Int) :
    s.afterWrite m1 m2 d v =
      ((s.growTo (max (max (s.reach 1 m1) (s.reach 2 m2)) (s.ip + 4))).store d v).advance 4 := by
  simp only [State.afterWrite, State.growTo, State.store, State.advance]

/-! ## The instructions -/

section
variable {s t : State} {m1 m2 m3 : Mode}

theorem exec_three_inv {i : Instr} (hi : i ∈ [.add m1 m2 m3, .mul m1 m2 m3, .lessThan m1 m2 m3, .equals m1 m2 m3])
    (hs : s.Inv) (hip : s.ip < s.cfg.addrLimit) (h : exec i s = .next t) : t.Inv := by
  rcases exec_three_cases hi h with ⟨a, b, d, v, h1, h2, h3, hv, rfl⟩ | ⟨e, -, hf⟩
  · obtain ⟨hk, -, hd⟩ := dest_some h3
    have hreach := max_le (max_le (reach_le h1) (reach_le h2)) (show s.ip + 4 ≤ s.cfg.addrLimit from hk)
    rw [afterWrite_eq]
    exact ((hs.growTo hreach).store hd (resultOf_inCell hs.cfgWf hv)).advance hip le_rfl
  · exact hs.faulted hf (exec_grows h)

theorem exec_jump_inv {i : Instr} (hi : i ∈ [.jumpIfTrue m1 m2, .jumpIfFalse m1 m2]) (hs : s.Inv)
    (hip : s.ip < s.cfg.addrLimit) (h : exec i s = .next t) : t.Inv := by
  rcases exec_jump_cases hi h with ⟨a, b, h1, h2, hcases⟩ | ⟨e, -, hf⟩
  · have hgrown := hs.growTo (max_le (reach_le h1) (reach_le h2))
    rcases hcases with ⟨-, -, rfl⟩ | ⟨-, rfl⟩ | ⟨-, -, hf⟩
    · exact hgrown.jump (toNat_lt_of_inCell (source_inCell hs.cellsIn h2))
    · exact hgrown.advance hip (by omega)
    · exact hs.faulted hf (exec_grows h)
  · exact hs.faulted hf (exec_grows h)

theorem exec_input_inv (hs : s.Inv) (hip : s.ip < s.cfg.addrLimit) (h : exec .input s = .next t) : t.Inv := by
  have hg := exec_grows h
  rcases exec_input_cases h with ⟨e, -, hf⟩ | ⟨d, hd, hcases⟩
  · exact hs.faulted hf hg
  · rcases hcases with ⟨-, rfl⟩ | ⟨v, rest, hin, hv, rfl⟩ | ⟨rest, -, hf⟩ | ⟨rest, hin, hf⟩ | ⟨first, rest, hin, -, hf⟩
    · exact hs
    · obtain ⟨hk, -, hd⟩ := dest_some hd
      exact (((hs.takeInput hin).growTo (n := s.ip + 2) hk).store hd hv).advance hip (by omega)
    · exact hs.faulted hf hg
    · exact (hs.takeInput hin).faulted hf hg
    · exact (hs.takeInput hin).faulted hf hg

theorem exec_output_inv (hs : s.Inv) (hip : s.ip < s.cfg.addrLimit) (h : exec (.output m1) s = .next t) : t.Inv := by
  rcases exec_output_cases h with ⟨a, rest, ha, -, rfl⟩ | ⟨a, rest, b, ha, -, rfl⟩ | ⟨e, -, hf⟩
  · exact (((hs.growTo (reach_le ha)).withSink rest).record (source_inCell hs.cellsIn ha)).advance hip (by omega)
  · have hgrown := (hs.growTo (reach_le ha)).withSink rest
    cases b with
    | true => exact (hgrown.record (source_inCell hs.cellsIn ha)).raise _
    | false => exact hgrown.raise _
  · exact hs.faulted hf (exec_grows h)

theorem exec_adjustRelBase_inv (hs : s.Inv) (hip : s.ip < s.cfg.addrLimit) (h : exec (.adjustRelBase m1) s = .next t) :
    t.Inv := by
  rcases exec_adjustRelBase_cases h with ⟨a, v, hen, ha, hv, rfl⟩ | ⟨-, a, -, -, hf⟩ | ⟨-, e, -, hf⟩ | ⟨-, rfl⟩
  · have hcell := narrow_some_inCell hs.cfgWf hv
    exact ((hs.growTo (reach_le ha)).setRelBase hen hcell).advance hip (by omega)
  · exact hs.faulted hf (exec_grows h)
  · exact hs.faulted hf (exec_grows h)
  · exact hs.raise _

end

/-- Every instruction of a running engine that could be fetched keeps the invariant. -/
theorem exec_inv {i : Instr} {s t : State} (hs : s.Inv) (hr : s.run = .running) (hip : s.ip < s.cfg.addrLimit)
    (h : exec i s = .next t) : t.Inv := by
  rcases instr_shapes i with ⟨m1, m2, m3, hi⟩ | ⟨m1, m2, hi⟩ | rfl | ⟨m, rfl⟩ | ⟨m, rfl⟩ | rfl | ⟨op, rfl⟩ | ⟨w, rfl⟩
  · exact exec_three_inv hi hs hip h
  · exact exec_jump_inv hi hs hip h
  · exact exec_input_inv hs hip h
  · exact exec_output_inv hs hip h
  · exact exec_adjustRelBase_inv hs hip h
  · cases h
    exact hs.halt hr
  · cases h
    exact hs.raise _
  · cases h
    exact hs.raise _

/-- Settles O50: the fetch and the instruction keep every clause of the invariant. -/
theorem stepKeepsTheInvariant : Obligations.StepKeepsTheInvariant := by
  intro s t hs h
  obtain ⟨hr, ⟨hip, hx⟩ | ⟨-, rfl⟩⟩ := step_cases h
  · exact exec_inv (hs.growTo hip) hr hip hx
  · exact hs.raise _

/-! ## The first state of a run, and every state reached from it -/

theorem imageCells_inCell {c : Config} {image : List Int} (h : ∀ v ∈ image, InCell c v) (i : Nat) :
    ∀ p ∈ imageCells i image, InCell c p.2 := by
  induction image generalizing i with
  | nil => simp [imageCells]
  | cons v rest ih =>
    have hrest := ih (fun w hw => h w (List.mem_cons_of_mem v hw)) (i + 1)
    unfold imageCells
    split
    · exact hrest
    · exact List.forall_mem_cons.mpr ⟨h v List.mem_cons_self, hrest⟩

theorem launch_inv {l : Launch} {s : State} (h : State.launch l = some s) : s.Inv := by
  unfold State.launch at h
  split at h
  · next hok =>
    obtain ⟨hcfg, hlen, himage, hinputs, houtputs⟩ := hok
    cases h
    exact {
      cfgWf := hcfg
      memWf := Memory.ofImage_wf l.image
      lenLe := hlen
      cellsIn := imageCells_inCell himage 0
      relBaseIn := inCell_zero l.cfg
      ipLt := Nat.two_pow_pos l.cfg.xlen
      errNone := by simp
      inputsIn := hinputs
      outputsIn := houtputs
      relBaseZero := fun _ => rfl }
  · cases h

/-- Settles O51: the state after reset is the launch of the empty image with the default parameters. -/
theorem resetMeetsTheInvariant : Obligations.ResetMeetsTheInvariant :=
  launch_inv (l := ⟨Config.hardware, [], [.exhausted], [], []⟩) (by decide)

/-- Settles O52: a launch meets the invariant, and steps and answers keep it. -/
theorem everyReachableStateMeetsTheInvariant : Obligations.EveryReachableStateMeetsTheInvariant := by
  intro l s t hl hreach
  induction hreach with
  | here => exact launch_inv hl
  | step _ hstep ih => exact stepKeepsTheInvariant _ _ ih hstep
  | answer a _ ih => exact ih.answer a

end Sys2Proof.Machine
end

section
/-! PROOFS. A canonical tape is determined by what it reads as (10_state.md R21). -/

namespace Sys2Proof.Machine

theorem lookupCell_of_not_listed {l : List (Nat × Int)} {a : Nat} (h : ∀ p ∈ l, p.1 ≠ a) : lookupCell l a = 0 := by
  induction l with
  | nil => rfl
  | cons p rest ih =>
    rw [lookupCell, if_neg (h p List.mem_cons_self)]
    exact ih fun q hq => h q (List.mem_cons_of_mem p hq)

/-- A sorted list of cells holds exactly the non-zero cells it reads as. -/
theorem mem_iff_lookupCell {l : List (Nat × Int)} (hs : l.Pairwise fun p q => p.1 < q.1) (hz : ∀ p ∈ l, p.2 ≠ 0)
    (q : Nat × Int) : q ∈ l ↔ q.2 ≠ 0 ∧ lookupCell l q.1 = q.2 := by
  induction l with
  | nil => simp [lookupCell, eq_comm]
  | cons p rest ih =>
    obtain ⟨hlt, hrest⟩ := List.pairwise_cons.mp hs
    obtain ⟨hp, hzrest⟩ := List.forall_mem_cons.mp hz
    rw [List.mem_cons, ih hrest hzrest, lookupCell]
    by_cases ha : p.1 = q.1
    · have hgone : lookupCell rest q.1 = 0 := lookupCell_of_not_listed fun r hr => by
        have := hlt r hr
        omega
      rw [if_pos ha, hgone]
      constructor
      · rintro (rfl | ⟨hq, hq0⟩)
        · exact ⟨hp, rfl⟩
        · exact absurd hq0.symm hq
      · exact fun h => .inl (Prod.ext ha.symm h.2.symm)
    · have hne : q ≠ p := fun h => ha (by rw [h])
      rw [if_neg ha, or_iff_right hne]

theorem cells_eq_of_lookupCell {l₁ l₂ : List (Nat × Int)} (h₁ : l₁.Pairwise fun p q => p.1 < q.1)
    (h₂ : l₂.Pairwise fun p q => p.1 < q.1) (hz₁ : ∀ p ∈ l₁, p.2 ≠ 0) (hz₂ : ∀ p ∈ l₂, p.2 ≠ 0)
    (h : ∀ a, lookupCell l₁ a = lookupCell l₂ a) : l₁ = l₂ := by
  have : Std.Antisymm fun p q : Nat × Int => p.1 < q.1 := ⟨fun _ _ hpq hqp => absurd hqp hpq.asymm⟩
  have : Std.Irrefl fun p q : Nat × Int => p.1 < q.1 := ⟨fun p => lt_irrefl p.1⟩
  refine h₁.eq_of_mem_iff h₂ fun q => ?_
  rw [mem_iff_lookupCell h₁ hz₁, mem_iff_lookupCell h₂ hz₂, h]

/-- Settles O13: a canonical tape lists exactly the non-zero cells it reads as, in the order of their addresses. -/
theorem tapesThatReadAlikeAreEqual : Obligations.TapesThatReadAlikeAreEqual := by
  intro m n ⟨hm, hzm⟩ ⟨hn, hzn⟩ hlen hread
  have hcells := cells_eq_of_lookupCell hm hn (fun p hp => (hzm p hp).1) (fun p hp => (hzn p hp).1) hread
  cases m
  cases n
  cases hlen
  cases hcells
  rfl

end Sys2Proof.Machine
end

section
/-! PROOFS. Frames: what each instruction leaves unchanged, complete or faulting (10_state.md R30), and the registers
that only one of them writes. -/

namespace Sys2Proof.Machine

/-- The one cell a completing format `RRW` instruction changes is its destination. -/
theorem afterWrite_cell_other (s : State) (m1 m2 : Mode) {d x : Nat} (v : Int) (h : x ≠ d) :
    (s.afterWrite m1 m2 d v).mem.cell x = s.mem.cell x :=
  (Memory.cell_store_other _ v h).trans (Memory.growTo_cell ..)

/-- Settles O37: a completing instruction stores at its destination, and a precise fault changes no cell. -/
theorem threeOperandFrame : Obligations.ThreeOperandFrame := by
  intro s t m1 m2 m3 i hi h
  rcases exec_three_cases hi h with ⟨a, b, d, v, h1, h2, h3, -, rfl⟩ | ⟨e, -, n, -, rfl⟩
  · have hd : storeAddress m1 m2 m3 s = some d := (storeAddress_eq h1 h2).trans h3
    refine ⟨rfl, rfl, rfl, rfl, rfl, .inl ⟨rfl, rfl⟩, fun d' hd' x hx => ?_, fun hn => ?_⟩
    · rw [hd, Option.some.injEq] at hd'
      exact afterWrite_cell_other s m1 m2 v (hd' ▸ hx)
    · simp [hd] at hn
  · exact ⟨rfl, rfl, rfl, rfl, rfl, .inr ⟨rfl, Option.some_ne_none e, fun _ => rfl⟩, fun _ _ _ _ => rfl, fun _ _ => rfl⟩

theorem inputStoreAddress_of_dest {s : State} {d : Nat} (h : s.inputDest = some d) : inputStoreAddress s = some d := by
  rw [inputStoreAddress, inputAddr_ok h]

/-- Settles O38: only the answer `Value` stores, at the destination; the hold and every fault change no cell. -/
theorem inputFrame : Obligations.InputFrame := by
  intro s t h
  rcases exec_input_cases h with ⟨e, -, n, -, rfl⟩ | ⟨d, hd, hcases⟩
  · exact ⟨rfl, rfl, rfl, rfl, .inr ⟨rfl, Option.some_ne_none e, fun _ => rfl⟩, fun _ _ _ _ => rfl,
      fun _ => ⟨rfl, fun _ => rfl⟩⟩
  · have haddr : inputStoreAddress s ≠ none := by simp [inputStoreAddress_of_dest hd]
    rcases hcases with ⟨-, rfl⟩ | ⟨v, rest, -, -, rfl⟩ | ⟨_, -, n, -, rfl⟩ | ⟨_, -, n, -, rfl⟩ | ⟨_, _, -, -, n, -, rfl⟩
    · exact ⟨rfl, rfl, rfl, rfl, .inl ⟨rfl, rfl⟩, fun _ _ _ _ => rfl, fun hn => absurd hn haddr⟩
    · refine ⟨rfl, rfl, rfl, rfl, .inl ⟨rfl, rfl⟩, fun d' hd' x hx => ?_, fun hn => absurd hn haddr⟩
      rw [inputStoreAddress_of_dest hd, Option.some.injEq] at hd'
      exact (Memory.cell_store_other _ v (hd' ▸ hx)).trans (Memory.growTo_cell ..)
    all_goals
      exact ⟨rfl, rfl, rfl, rfl, .inr ⟨rfl, Option.some_ne_none _, fun _ => rfl⟩, fun _ _ _ _ => rfl,
        fun hn => absurd hn haddr⟩

/-- Settles O39: OUTPUT accepted, OUTPUT rejected, and a fault in its operand change no cell. -/
theorem outputFrame : Obligations.OutputFrame := by
  intro s t m1 h
  rcases exec_output_cases h with ⟨a, rest, -, -, rfl⟩ | ⟨a, rest, b, -, -, rfl⟩ | ⟨e, -, n, -, rfl⟩
  · exact ⟨rfl, rfl, rfl, .inl ⟨rfl, rfl⟩, Memory.growTo_cell s.mem _⟩
  · exact ⟨rfl, rfl, rfl, .inr ⟨rfl, Option.some_ne_none _⟩, Memory.growTo_cell s.mem _⟩
  · exact ⟨rfl, rfl, rfl, .inr ⟨rfl, Option.some_ne_none e⟩, fun _ => rfl⟩

theorem jump_frame {s t : State} {m1 m2 : Mode} {i : Instr} (hi : i ∈ [.jumpIfTrue m1 m2, .jumpIfFalse m1 m2])
    (h : exec i s = .next t) :
    t.cfg = s.cfg ∧ t.relBase = s.relBase ∧ t.inputs = s.inputs ∧ t.outputs = s.outputs ∧ t.sink = s.sink ∧
      ((t.run = s.run ∧ t.err = s.err) ∨ (t.run = .failed ∧ t.err ≠ none)) ∧ ∀ x, t.mem.cell x = s.mem.cell x := by
  rcases exec_jump_cases hi h with ⟨a, b, -, -, ⟨-, -, rfl⟩ | ⟨-, rfl⟩ | ⟨-, -, n, -, rfl⟩⟩ | ⟨e, -, n, -, rfl⟩
  · exact ⟨rfl, rfl, rfl, rfl, rfl, .inl ⟨rfl, rfl⟩, Memory.growTo_cell s.mem _⟩
  · exact ⟨rfl, rfl, rfl, rfl, rfl, .inl ⟨rfl, rfl⟩, Memory.growTo_cell s.mem _⟩
  · exact ⟨rfl, rfl, rfl, rfl, rfl, .inr ⟨rfl, Option.some_ne_none _⟩, fun _ => rfl⟩
  · exact ⟨rfl, rfl, rfl, rfl, rfl, .inr ⟨rfl, Option.some_ne_none e⟩, fun _ => rfl⟩

/-- Settles O40: a jump grows the tape at most; HALT sets `run`; an illegal word raises. -/
theorem jumpAndHaltFrame : Obligations.JumpAndHaltFrame := by
  intro s t m1 m2 op w i hi h
  have hshape : i ∈ [.jumpIfTrue m1 m2, .jumpIfFalse m1 m2] ∨ i = .halt ∨ i = .illegalOpcode op ∨
      i = .negativeWord w := by
    simpa [or_assoc] using hi
  rcases hshape with hj | rfl | rfl | rfl
  · obtain ⟨hcfg, hrel, hin, hout, hsink, hrun, hcell⟩ := jump_frame hj h
    exact ⟨hcfg, hrel, hin, hout, hsink, hrun.imp_right .inl, hcell⟩
  · cases h
    exact ⟨rfl, rfl, rfl, rfl, rfl, .inr (.inr ⟨rfl, rfl, rfl⟩), fun _ => rfl⟩
  all_goals
    cases h
    exact ⟨rfl, rfl, rfl, rfl, rfl, .inr (.inl ⟨rfl, Option.some_ne_none _⟩), fun _ => rfl⟩

/-- Settles O41: a completing ADJUST-RELATIVE-BASE changes `rel_base` and `ip`, a fault neither. -/
theorem adjustRelBaseFrame : Obligations.AdjustRelBaseFrame := by
  intro s t m1 h
  rcases exec_adjustRelBase_cases h with
    ⟨a, v, -, -, -, rfl⟩ | ⟨-, a, -, -, n, -, rfl⟩ | ⟨-, e, -, n, -, rfl⟩ | ⟨-, rfl⟩
  · exact ⟨rfl, rfl, rfl, rfl, .inl ⟨rfl, rfl⟩, Memory.growTo_cell s.mem _⟩
  all_goals exact ⟨rfl, rfl, rfl, rfl, .inr ⟨rfl, Option.some_ne_none _, rfl, rfl⟩, fun _ => rfl⟩

theorem exec_relBase {i : Instr} {s t : State} (h : exec i s = .next t) :
    t.relBase = s.relBase ∨ ∃ m, i = .adjustRelBase m := by
  rcases instr_shapes i with ⟨m1, m2, m3, hi⟩ | ⟨m1, m2, hi⟩ | rfl | ⟨m, rfl⟩ | ⟨m, rfl⟩ | rfl | ⟨op, rfl⟩ | ⟨w, rfl⟩
  · obtain ⟨-, hrel, -⟩ := threeOperandFrame s t m1 m2 m3 i hi h
    exact .inl hrel
  · obtain ⟨-, hrel, -⟩ := jump_frame hi h
    exact .inl hrel
  · obtain ⟨-, hrel, -⟩ := inputFrame s t h
    exact .inl hrel
  · obtain ⟨-, hrel, -⟩ := outputFrame s t m h
    exact .inl hrel
  · exact .inr ⟨m, rfl⟩
  all_goals
    cases h
    exact .inl rfl

/-- Settles O44: the frame of every other instruction keeps `rel_base`, and so do the fetch and its fault. -/
theorem onlyAdjustRelBaseChangesRelBase : Obligations.OnlyAdjustRelBaseChangesRelBase := by
  intro s t h hne
  obtain ⟨-, ⟨-, hx⟩ | ⟨-, rfl⟩⟩ := step_cases h
  · exact (exec_relBase hx).resolve_left hne
  · exact absurd rfl hne

end Sys2Proof.Machine
end

section
/-! PROOFS. The ends of a run, and the registers at reset (10_state.md R18 and R27). -/

namespace Sys2Proof.Machine

/-- Settles O9: `step` looks at `run` before it fetches. -/
theorem endedEngineMakesNoStep : Obligations.EndedEngineMakesNoStep := by
  intro s
  refine ⟨fun hhalted => ?_, fun hfailed => ?_⟩
  · rw [step, hhalted]
  · rw [step, hfailed]

/-- Settles O54, by evaluating the reset state. -/
theorem resetValuesAreTheSpecs : Obligations.ResetValuesAreTheSpecs := by
  unfold Obligations.ResetValuesAreTheSpecs
  decide

end Sys2Proof.Machine
end

section
/-! PROOFS. Memory: checking, reading and writing one address, the fetch, and a store that the next fetch sees
(20_memory.md R32 to R38 and R45, 70_reset_and_hazards.md R143). -/

namespace Sys2Proof.Machine

/-! ## Addresses -/

theorem addrFault_of_neg {c : Config} {a : Int} (h : a < 0) : addrFault c a = some .negativeAddress := if_pos h

theorem addrFault_of_limit_le {c : Config} {a : Int} (h : (c.addrLimit : Int) ≤ a) :
    addrFault c a = some .addressOutOfRange := by
  rw [addrFault, if_neg (by omega), if_pos h]

/-- Settles O20: `CheckAddr` raises the address's fault, and gives back an address that has none. -/
theorem checkAddrRefusesIllegalAddresses : Obligations.CheckAddrRefusesIllegalAddresses := by
  intro s a
  refine ⟨fun hneg => ?_, fun hlim => ?_, fun hnonneg hlt => ?_⟩
  · exact checkAddr_fault (addrFault_of_neg hneg)
  · exact checkAddr_fault (addrFault_of_limit_le hlim)
  · exact ⟨a.toNat, Int.toNat_of_nonneg hnonneg, checkAddr_legal ⟨hnonneg, hlt⟩⟩

/-! ## Reading -/

/-- The length of a tape extended to include the address `a`, as R33 puts it. -/
theorem max_succ_eq_ite (len a : Nat) : max len (a + 1) = if len ≤ a then a + 1 else len := by
  split <;> omega

/-- A read that completes was at a legal address; it gives the cell there, and grows the tape. -/
theorem memRead_ok_cases {a v : Int} {s t : State} (h : memRead a s = .ok v t) :
    LegalAddr s.cfg a ∧ v = s.mem.cell a.toNat ∧ t = s.growTo (a.toNat + 1) := by
  cases hf : addrFault s.cfg a with
  | some e =>
    rw [memRead_fault hf] at h
    cases h
  | none =>
    have hl := addrFault_eq_none.mp hf
    rw [memRead_legal hl] at h
    cases h
    exact ⟨hl, rfl, rfl⟩

theorem memRead_again {a v : Int} {s t : State} (h : memRead a s = .ok v t) : memRead a t = .ok v t := by
  obtain ⟨hl, rfl, rfl⟩ := memRead_ok_cases h
  rw [memRead_legal (s := s.growTo (a.toNat + 1)) hl]
  simp

/-- Settles O11: each clause is the read at a legal address, or the fault of one that is not. -/
theorem memReadGivesTheCellAndGrows : Obligations.MemReadGivesTheCellAndGrows := by
  intro s a
  refine ⟨fun hl => ?_, fun hwf n hn => Memory.cell_of_len_le hwf hn, fun v t => memRead_again, fun hcells v t h => ?_,
    fun hneg => memRead_fault (addrFault_of_neg hneg), fun hlim => memRead_fault (addrFault_of_limit_le hlim)⟩
  · rw [memRead_legal hl, State.growTo, Memory.growTo_eq, max_succ_eq_ite]
  · obtain ⟨-, rfl, -⟩ := memRead_ok_cases h
    exact lookupCell_inCell hcells _

/-! ## Writing -/

theorem memWrite_of_legal {a : Int} {s : State} (v : Int) (h : LegalAddr s.cfg a) :
    memWrite a v s = .ok () (s.store a.toNat v) := by
  rw [memWrite, checkAddr_legal h, Attempt.andThen_ok]

theorem memWrite_fault {a : Int} {s : State} {e : ErrKind} (v : Int) (h : addrFault s.cfg a = some e) :
    memWrite a v s = .raised (s.raise e) := by
  rw [memWrite, checkAddr_fault h, Attempt.andThen_raised]

/-- A destination that is computed is the one the parameter names, and computing it grows the tape at most. -/
theorem writeAddr_ok_cases {k d : Nat} {m : Mode} {s t : State} (h : writeAddr k m s = .ok d t) :
    s.dest k m = some d ∧ t = s.growTo (s.ip + k + 1) := by
  rcases dest_or_fault s k m with ⟨d', hd, -⟩ | ⟨e, he, -⟩
  · rw [writeAddr_ok hd] at h
    cases h
    exact ⟨hd, rfl⟩
  · obtain ⟨n, hn⟩ := writeAddr_fault he
    rw [hn] at h
    cases h

/-- Settles O12: the write at a legal address is one store, and an address from `WriteAddr` is legal. -/
theorem memWriteWritesOneCell : Obligations.MemWriteWritesOneCell := by
  intro s a v
  refine ⟨fun hl => ?_, fun hneg => memWrite_fault v (addrFault_of_neg hneg),
    fun hlim => memWrite_fault v (addrFault_of_limit_le hlim), fun k m d t h => ?_⟩
  · exact ⟨s.mem.store a.toNat v, memWrite_of_legal v hl, Memory.cell_store_same .., fun x => Memory.cell_store_other _ v,
      by rw [Memory.store_len, max_succ_eq_ite]⟩
  · obtain ⟨hd, rfl⟩ := writeAddr_ok_cases h
    obtain ⟨-, -, hlt⟩ := dest_some hd
    exact ⟨_, memWrite_legal (s := s.growTo (s.ip + k + 1)) hlt⟩

/-! ## The fetch -/

/-- A running engine whose `ip` is legal runs the word there, in the state after the fetch (R64). -/
theorem step_of_ip_lt {s : State} (hr : s.run = .running) (hip : s.ip < s.cfg.addrLimit) :
    step s = exec (decode (s.mem.cell s.ip)) (s.growTo (s.ip + 1)) := by
  simp only [step, hr, fetch_eq, if_pos hip]

theorem step_of_limit_le_ip {s : State} (hr : s.run = .running) (hip : s.cfg.addrLimit ≤ s.ip) :
    step s = .next (s.raise .addressOutOfRange) := by
  simp only [step, hr, fetch_eq, if_neg (not_lt.mpr hip)]

/-- Settles O7: the fetch is a read, and its fault is the whole step. -/
theorem fetchBeyondTheLimitFaults : Obligations.FetchBeyondTheLimitFaults :=
  fun _ hr hip => step_of_limit_le_ip hr hip

theorem decode_zero : decode 0 = .illegalOpcode 0 := rfl

theorem exec_illegalOpcode (op : Nat) (s : State) : exec (.illegalOpcode op) s = .next (s.raise .invalidOpCode) := rfl

/-- Settles O8: beyond a canonical tape the word is 0, which is no instruction. -/
theorem fetchBeyondTheTapeFaults : Obligations.FetchBeyondTheTapeFaults := by
  intro s hwf hr hlen hip
  rw [step_of_ip_lt hr hip, Memory.cell_of_len_le hwf hlen, decode_zero, exec_illegalOpcode, State.raise_growTo,
    max_eq_right (by omega)]

/-! ## A store and the fetch after it -/

theorem exec_add_ok {s : State} {m1 m2 m3 : Mode} {a b v : Int} {d : Nat} (h1 : s.source 1 m1 = some a)
    (h2 : s.source 2 m2 = some b) (h3 : s.dest 3 m3 = some d) (hv : narrow s.cfg (a + b) = some v) :
    exec (.add m1 m2 m3) s = .next (s.afterWrite m1 m2 d v) := by
  simp only [exec, execAdd, threeOperand_ok computes_aluAdd h1 h2 h3 hv, Attempt.outcome_ok]

theorem afterWrite_cell_same (s : State) (m1 m2 : Mode) (d : Nat) (v : Int) :
    (s.afterWrite m1 m2 d v).mem.cell d = v :=
  Memory.cell_store_same ..

/-- The tape includes the cell that was written. -/
theorem lt_afterWrite_len (s : State) (m1 m2 : Mode) (d : Nat) (v : Int) : d < (s.afterWrite m1 m2 d v).mem.len := by
  simp [afterWrite_eq]

/-- Extending a tape to a length it already has does nothing. -/
theorem State.growTo_of_le {s : State} {n : Nat} (h : n ≤ s.mem.len) : s.growTo n = s := by
  rw [State.growTo, Memory.growTo, if_pos h]

/-- Settles O49: after the ADD, `ip` stands at the cell it wrote, and the fetch reads that cell and grows nothing. -/
theorem storeIsSeenByTheNextFetch : Obligations.StoreIsSeenByTheNextFetch := by
  intro s m1 m2 m3 a b v hr h1 h2 h3 hv
  obtain ⟨-, -, hip⟩ := dest_some h3
  have hcell := afterWrite_cell_same s m1 m2 (s.ip + 4) v
  refine ⟨s.afterWrite m1 m2 (s.ip + 4) v, exec_add_ok h1 h2 h3 hv, hcell, ?_⟩
  calc step (s.afterWrite m1 m2 (s.ip + 4) v)
      = exec (decode ((s.afterWrite m1 m2 (s.ip + 4) v).mem.cell (s.ip + 4)))
          ((s.afterWrite m1 m2 (s.ip + 4) v).growTo (s.ip + 4 + 1)) := step_of_ip_lt hr hip
    _ = exec (decode v) (s.afterWrite m1 m2 (s.ip + 4) v) := by
      rw [hcell, State.growTo_of_le (lt_afterWrite_len ..)]

end Sys2Proof.Machine
end

section
/-! PROOFS. The decoder and the encoder (30_encoding.md R48 to R55, R72): a word is its opcode and its three mode digits,
and an instruction is an opcode and the modes it examines. -/

namespace Sys2Proof

/-! ## An opcode and three modes -/

/-- The instruction that an opcode value names when the word's mode digits stand for `m1`, `m2`, `m3` (R52); the modes
it does not examine are dropped (R54, R55). -/
def Instr.ofOpcode (op : Nat) (m1 m2 m3 : Mode) : Instr :=
  match op with
  | 1 => .add m1 m2 m3
  | 2 => .mul m1 m2 m3
  | 3 => .input
  | 4 => .output m1
  | 5 => .jumpIfTrue m1 m2
  | 6 => .jumpIfFalse m1 m2
  | 7 => .lessThan m1 m2 m3
  | 8 => .equals m1 m2 m3
  | 9 => .adjustRelBase m1
  | 99 => .halt
  | op => .illegalOpcode op

theorem decode_eq_ofOpcode (w : Nat) :
    decode (w : Int) = .ofOpcode (w % 100) (modeOf w 1) (modeOf w 2) (modeOf w 3) :=
  decode_nat w

theorem illegalOpcodeValue_iff {op : Nat} : illegalOpcodeValue op = true ↔ op = 0 ∨ (10 ≤ op ∧ op ≤ 98) :=
  decide_eq_true_iff

/-- The rows of the opcode map (R52): an opcode value is illegal, or one of the ten instructions'. -/
theorem opcode_cases {op : Nat} (h : op < 100) : illegalOpcodeValue op = true ∨ op = 1 ∨ op = 2 ∨ op = 3 ∨ op = 4 ∨
    op = 5 ∨ op = 6 ∨ op = 7 ∨ op = 8 ∨ op = 9 ∨ op = 99 := by
  rw [illegalOpcodeValue_iff]
  omega

theorem illegalOpcodeValue_lt {op : Nat} (h : illegalOpcodeValue op = true) : op < 100 := by
  have := illegalOpcodeValue_iff.mp h
  omega

theorem Instr.ofOpcode_illegal {op : Nat} (m1 m2 m3 : Mode) (h : illegalOpcodeValue op = true) :
    ofOpcode op m1 m2 m3 = .illegalOpcode op := by
  unfold ofOpcode
  split
  case h_11 => rfl
  all_goals exact absurd h (by decide)

/-! ## Decoding an encoding -/

/-- No digit of a word is lost: the decoder reads back the opcode and the modes the word was put together from. -/
theorem decode_wordOf {op : Nat} {m1 m2 m3 : Mode} (hop : op < 100) (h1 : m1.wf = true) (h2 : m2.wf = true)
    (h3 : m3.wf = true) : decode (wordOf op m1.digit m2.digit m3.digit) = .ofOpcode op m1 m2 m3 := by
  have hd1 := Mode.digit_le h1
  have hd2 := Mode.digit_le h2
  have hd3 := Mode.digit_le h3
  rw [wordOf, decode_eq_ofOpcode, opcode_of_digits _ _ _ hop, mode1_of_digits _ _ hop hd1,
    mode2_of_digits _ hop hd1 hd2, mode3_of_digits hop hd1 hd2 hd3, Mode.ofDigit_digit h1, Mode.ofDigit_digit h2,
    Mode.ofDigit_digit h3]

theorem decode_wordOf_three {op : Nat} {m1 m2 m3 : Mode} (hop : op < 100) (h : (m1.wf && m2.wf && m3.wf) = true) :
    decode (wordOf op m1.digit m2.digit m3.digit) = .ofOpcode op m1 m2 m3 := by
  simp only [Bool.and_eq_true] at h
  obtain ⟨⟨h1, h2⟩, h3⟩ := h
  exact decode_wordOf hop h1 h2 h3

theorem decode_wordOf_two {op : Nat} {m1 m2 : Mode} (hop : op < 100) (h : (m1.wf && m2.wf) = true) :
    decode (wordOf op m1.digit m2.digit 0) = .ofOpcode op m1 m2 .position :=
  decode_wordOf_three (m3 := .position) hop (by rw [h]; rfl)

theorem decode_wordOf_one {op : Nat} {m1 : Mode} (hop : op < 100) (h : m1.wf = true) :
    decode (wordOf op m1.digit 0 0) = .ofOpcode op m1 .position .position :=
  decode_wordOf (m2 := .position) (m3 := .position) hop h rfl rfl

theorem decode_wordOf_zero {op : Nat} (hop : op < 100) :
    decode (wordOf op 0 0 0) = .ofOpcode op .position .position .position :=
  decode_wordOf_one (m1 := .position) hop rfl

/-- Settles O1: each row's word carries its opcode and the modes it examines, and a 0 digit where it examines none. -/
theorem decodeOfEncodeIsTheInstruction : Obligations.DecodeOfEncodeIsTheInstruction := by
  intro i h
  cases i with
  | add m1 m2 m3 => exact decode_wordOf_three (by decide) h
  | mul m1 m2 m3 => exact decode_wordOf_three (by decide) h
  | lessThan m1 m2 m3 => exact decode_wordOf_three (by decide) h
  | equals m1 m2 m3 => exact decode_wordOf_three (by decide) h
  | jumpIfTrue m1 m2 => exact decode_wordOf_two (by decide) h
  | jumpIfFalse m1 m2 => exact decode_wordOf_two (by decide) h
  | output m1 => exact decode_wordOf_one (by decide) h
  | adjustRelBase m1 => exact decode_wordOf_one (by decide) h
  | input => exact decode_wordOf_zero (by decide)
  | halt => exact decode_wordOf_zero (by decide)
  | illegalOpcode op =>
    exact (decode_wordOf_zero (illegalOpcodeValue_lt h)).trans (Instr.ofOpcode_illegal _ _ _ h)
  | negativeWord w => exact decode_negative (of_decide_eq_true h)

/-! ## What the decoder gives -/

theorem Instr.ofOpcode_wf {op : Nat} {m1 m2 m3 : Mode} (hop : op < 100) (h1 : m1.wf = true) (h2 : m2.wf = true)
    (h3 : m3.wf = true) : (ofOpcode op m1 m2 m3).wf = true := by
  rcases opcode_cases hop with hill | rfl | rfl | rfl | rfl | rfl | rfl | rfl | rfl | rfl | rfl
  · rw [ofOpcode_illegal _ _ _ hill]
    exact hill
  all_goals simp [ofOpcode, Instr.wf, h1, h2, h3]

/-- Settles O2: a negative word is one of its own kind, and the modes of any other are digits. -/
theorem decodeIsAlwaysWellFormed : Obligations.DecodeIsAlwaysWellFormed := by
  intro w
  rcases lt_or_ge w 0 with hneg | hnonneg
  · rw [decode_negative hneg]
    exact decide_eq_true hneg
  · lift w to Nat using hnonneg
    rw [decode_eq_ofOpcode]
    exact Instr.ofOpcode_wf (Nat.mod_lt w (by decide)) (modeOf_wf ..) (modeOf_wf ..) (modeOf_wf ..)

/-! ## The canonical spelling -/

theorem examinedModes_le (op : Nat) : examinedModes op ≤ 3 := by
  unfold examinedModes
  split <;> decide

theorem examinedModes_illegal {op : Nat} (h : illegalOpcodeValue op = true) : examinedModes op = 0 := by
  unfold examinedModes
  split
  case h_9 => rfl
  all_goals exact absurd h (by decide)

/-- An encoding holds the mode digits that the opcode examines, and 0 for the others. -/
theorem encode_ofOpcode {op : Nat} (m1 m2 m3 : Mode) (hop : op < 100) :
    encode (.ofOpcode op m1 m2 m3) = wordOf op (if 1 ≤ examinedModes op then m1.digit else 0)
      (if 2 ≤ examinedModes op then m2.digit else 0) (if 3 ≤ examinedModes op then m3.digit else 0) := by
  rcases opcode_cases hop with hill | rfl | rfl | rfl | rfl | rfl | rfl | rfl | rfl | rfl | rfl
  · rw [Instr.ofOpcode_illegal _ _ _ hill, examinedModes_illegal hill]
    rfl
  all_goals rfl

/-- The digits of a word up to the `n`-th mode digit, put together, are what is left of the word below them. -/
theorem wordOf_digits (w : Nat) {n : Nat} (hn : n ≤ 3) :
    wordOf (w % 100) (if 1 ≤ n then digit w 2 else 0) (if 2 ≤ n then digit w 3 else 0) (if 3 ≤ n then digit w 4 else 0) =
      ((w % 10 ^ (2 + n) : Nat) : Int) := by
  unfold wordOf digit
  interval_cases n <;> norm_num <;> omega

theorem modeOf_digit (w k : Nat) : (modeOf w k).digit = digit w (k + 1) := Mode.digit_ofDigit _

theorem encode_decode_nat (w : Nat) :
    encode (decode w) = ((w % 10 ^ (2 + examinedModes (w % 100)) : Nat) : Int) := by
  rw [decode_eq_ofOpcode, encode_ofOpcode _ _ _ (Nat.mod_lt w (by decide)), modeOf_digit, modeOf_digit, modeOf_digit]
  exact wordOf_digits w (examinedModes_le _)

/-- Settles O4: the encoder puts back the digits the decoder examined. -/
theorem encodeOfDecodeIsTheCanonicalWord : Obligations.EncodeOfDecodeIsTheCanonicalWord := by
  refine ⟨encode_decode_nat, fun w hneg => ?_⟩
  rw [decode_negative hneg, encode]

/-- Settles O3: what is left of the word is the encoding of what the word decodes to, and decodes to the same. -/
theorem unusedDigitsAreIgnored : Obligations.UnusedDigitsAreIgnored := by
  intro w
  rw [← encode_decode_nat]
  exact (decodeOfEncodeIsTheInstruction _ (decodeIsAlwaysWellFormed w)).symm

/-- Settles O5, by decoding each word. -/
theorem wordsOfTheSpecDecode : Obligations.WordsOfTheSpecDecode := by
  unfold Obligations.WordsOfTheSpecDecode
  decide

end Sys2Proof
end

section
/-! PROOFS. Resolving a parameter in each mode (30_encoding.md R57 to R61). -/

namespace Sys2Proof.Machine

/-! ## The raw word and mode 2's address -/

theorem raw_of_lt {s : State} {k : Nat} (hk : s.ip + k < s.cfg.addrLimit) :
    raw k s = .ok (s.mem.cell (s.ip + k)) (s.growTo (s.ip + k + 1)) := by
  rw [raw_eq, if_pos hk, State.rawWord]

theorem raw_of_limit_le {s : State} {k : Nat} (hk : s.cfg.addrLimit ≤ s.ip + k) :
    raw k s = .raised (s.raise .addressOutOfRange) := by
  rw [raw_eq, if_neg (not_lt.mpr hk)]

theorem narrow_of_toCell_ok {v r : Int} {s t : State} (h : toCell v s = .ok r t) : narrow s.cfg v = some r := by
  cases hn : narrow s.cfg v with
  | some q =>
    rw [toCell_some hn] at h
    cases h
    rfl
  | none =>
    rw [toCell_none hn] at h
    cases h

theorem narrow_of_toCell_raised {v : Int} {s t : State} (h : toCell v s = .raised t) : narrow s.cfg v = none := by
  cases hn : narrow s.cfg v with
  | some q =>
    rw [toCell_some hn] at h
    cases h
  | none => rfl

theorem relativeAddr_of_ok {s t : State} {k : Nat} {a : Int} (hk : s.ip + k < s.cfg.addrLimit)
    (ha : aluAdd (s.mem.cell (s.ip + k)) s.relBase s = .ok a t) :
    relativeAddr k s = .ok a (s.growTo (s.ip + k + 1)) := by
  rw [relativeAddr_eq, if_pos hk, State.rawWord, narrow_of_toCell_ok ha]

theorem relativeAddr_of_raised {s t : State} {k : Nat} (hk : s.ip + k < s.cfg.addrLimit)
    (ha : aluAdd (s.mem.cell (s.ip + k)) s.relBase s = .raised t) :
    relativeAddr k s = .raised ((s.growTo (s.ip + k + 1)).raise .arithmeticOverflow) := by
  rw [relativeAddr_eq, if_pos hk, State.rawWord, narrow_of_toCell_raised ha]

theorem relativeAddr_of_limit_le {s : State} {k : Nat} (hk : s.cfg.addrLimit ≤ s.ip + k) :
    relativeAddr k s = .raised (s.raise .addressOutOfRange) := by
  rw [relativeAddr_eq, if_neg (not_lt.mpr hk)]

/-! ## The modes -/

theorem readOperand_immediate (k : Nat) (s : State) : readOperand k .immediate s = raw k s := rfl

theorem readOperand_position (k : Nat) (s : State) :
    readOperand k .position s = (raw k s).andThen fun r s => memRead r s := rfl

theorem readOperand_relative {s : State} (k : Nat) (hen : s.cfg.relEn = true) :
    readOperand k .relative s = (relativeAddr k s).andThen fun a s => memRead a s := if_pos hen

theorem writeAddr_position (k : Nat) (s : State) :
    writeAddr k .position s = (raw k s).andThen fun a s => checkAddr a s := rfl

theorem writeAddr_relative {s : State} (k : Nat) (hen : s.cfg.relEn = true) :
    writeAddr k .relative s = (relativeAddr k s).andThen fun a s => checkAddr a s := if_pos hen

/-- Without `REL_EN` mode 2 is as invalid as the digits 3 to 9, and none of them reads the raw word. -/
theorem readOperand_of_refused {s : State} {m : Mode} (k : Nat) (h : RefusedMode s.cfg m) :
    readOperand k m s = .raised (s.raise .invalidParameterMode) := by
  rcases h with ⟨d, rfl⟩ | ⟨rfl, hdis⟩
  · rfl
  · exact if_neg (by rw [hdis]; exact Bool.false_ne_true)

theorem writeAddr_of_refused {s : State} {m : Mode} (k : Nat) (h : RefusedMode s.cfg m) :
    writeAddr k m s = .raised (s.raise .invalidParameterMode) := by
  rcases h with ⟨d, rfl⟩ | ⟨rfl, hdis⟩
  · rfl
  · exact if_neg (by rw [hdis]; exact Bool.false_ne_true)

/-- Settles O18: the mode is looked at first, then the raw word is read, then the address it names. -/
theorem readOperandSelectsByMode : Obligations.ReadOperandSelectsByMode := by
  intro s k
  refine ⟨fun hk => ⟨?_, ?_, fun hen a ha => ?_, fun hen u hu => ?_⟩, fun hk => ⟨?_, ?_, fun hen => ?_⟩,
    fun hdis => readOperand_of_refused k (.inr ⟨rfl, hdis⟩), fun d => readOperand_of_refused k (.inl ⟨d, rfl⟩)⟩
  · exact raw_of_lt hk
  · rw [readOperand_position, raw_of_lt hk, Attempt.andThen_ok]
  · rw [readOperand_relative k hen, relativeAddr_of_ok hk ha, Attempt.andThen_ok]
  · rw [readOperand_relative k hen, relativeAddr_of_raised hk hu, Attempt.andThen_raised]
  · exact raw_of_limit_le hk
  · rw [readOperand_position, raw_of_limit_le hk, Attempt.andThen_raised]
  · rw [readOperand_relative k hen, relativeAddr_of_limit_le hk, Attempt.andThen_raised]

/-- Settles O19: as for a source, but the address is checked where a source reads it, and mode 1 is refused. -/
theorem writeAddrSelectsByMode : Obligations.WriteAddrSelectsByMode := by
  intro s k
  refine ⟨fun hk => ⟨?_, fun hen a ha => ?_, fun hen u hu => ?_⟩, fun hk => ⟨?_, fun hen => ?_⟩,
    fun hdis => writeAddr_of_refused k (.inr ⟨rfl, hdis⟩), rfl, fun d => writeAddr_of_refused k (.inl ⟨d, rfl⟩)⟩
  · rw [writeAddr_position, raw_of_lt hk, Attempt.andThen_ok]
  · rw [writeAddr_relative k hen, relativeAddr_of_ok hk ha, Attempt.andThen_ok]
  · rw [writeAddr_relative k hen, relativeAddr_of_raised hk hu, Attempt.andThen_raised]
  · rw [writeAddr_position, raw_of_limit_le hk, Attempt.andThen_raised]
  · rw [writeAddr_relative k hen, relativeAddr_of_limit_le hk, Attempt.andThen_raised]

end Sys2Proof.Machine
end

section
/-! PROOFS. The cycle: the fetched word is decoded and executed, every instruction has a next state, and a negative word
is no instruction (30_encoding.md R49, R64 and R65). -/

namespace Sys2Proof.Machine

/-- Settles O6: the fetch at a legal `ip` is a read that completes. -/
theorem stepRunsTheDecodedInstruction : Obligations.StepRunsTheDecodedInstruction :=
  fun _ hr hip => step_of_ip_lt hr hip

/-- An instruction that completes and one that faults both end in a next state (R116). -/
theorem Attempt.outcome_next (x : Attempt Unit) : ∃ t, x.outcome = .next t := by
  cases x with
  | ok v s => exact ⟨s, rfl⟩
  | raised s => exact ⟨s, rfl⟩

/-- INPUT faults in its destination, is held, or deals with the port's answer. -/
theorem execInput_next (s : State) : ∃ t, execInput s = .next t := by
  unfold execInput
  split
  · exact ⟨_, rfl⟩
  · split
    · exact ⟨_, rfl⟩
    · exact Attempt.outcome_next _

theorem execAdjustRelBase_next (m1 : Mode) (s : State) : ∃ t, execAdjustRelBase m1 s = .next t := by
  unfold execAdjustRelBase
  split
  · exact Attempt.outcome_next _
  · exact ⟨_, rfl⟩

theorem exec_next (i : Instr) (s : State) : ∃ t, exec i s = .next t := by
  cases i with
  | input => exact execInput_next s
  | adjustRelBase m1 => exact execAdjustRelBase_next m1 s
  | halt => exact ⟨_, rfl⟩
  | illegalOpcode op => exact ⟨_, rfl⟩
  | negativeWord w => exact ⟨_, rfl⟩
  | _ => exact Attempt.outcome_next _

/-- Settles O10: the instruction at a legal `ip` has a next state, and an `ip` beyond the limit is a fault. -/
theorem everyInstructionHasANextState : Obligations.EveryInstructionHasANextState := by
  refine ⟨exec_next, fun s hr => ?_⟩
  rcases lt_or_ge s.ip s.cfg.addrLimit with hip | hip
  · rw [step_of_ip_lt hr hip]
    exact exec_next _ _
  · exact ⟨_, step_of_limit_le_ip hr hip⟩

theorem exec_negativeWord (w : Int) (s : State) : exec (.negativeWord w) s = .next (s.raise .invalidOpCode) := rfl

/-- Settles O36: the sign is looked at before any digit, and the instruction of a negative word is the fault. -/
theorem negativeWordRaisesInvalidOpCode : Obligations.NegativeWordRaisesInvalidOpCode := by
  refine ⟨fun _ => decode_negative, fun s w => exec_negativeWord w s, fun s hr hip hneg => ?_⟩
  rw [step_of_ip_lt hr hip, decode_negative hneg, exec_negativeWord]

end Sys2Proof.Machine
end

section
/-! PROOFS. The ALU: narrowing an exact result to a cell, the sum and the product of two cells, and the comparisons
(40_arithmetic.md R73 to R76). -/

namespace Sys2Proof.Machine

/-! ## The cell range -/

/-- The range has one more negative cell than positive ones. -/
theorem cellMin_eq_neg_cellMax (n : Nat) : cellMin n = -cellMax n - 1 := by
  unfold cellMin cellMax
  omega

/-- There are `2^XLEN` cells. -/
theorem two_pow_xlen {c : Config} (h : c.wf) : ((2 ^ c.xlen : Nat) : Int) = 2 * cellMax c.xlen + 2 := by
  have hpos : 0 < c.xlen := by have := h.1; omega
  have hpow := Nat.two_pow_pred_add_two_pow_pred hpos
  unfold cellMax
  omega

/-! ## Narrowing -/

/-- Two cells that are congruent modulo `2^XLEN` are the same cell. -/
theorem eq_of_inCell_of_dvd_sub {c : Config} (h : c.wf) {p q : Int} (hp : InCell c p) (hq : InCell c q)
    (hd : ((2 ^ c.xlen : Nat) : Int) ∣ p - q) : p = q := by
  have hsym := cellMin_eq_neg_cellMax c.xlen
  rw [two_pow_xlen h] at hd
  have hlt : |p - q| < 2 * cellMax c.xlen + 2 := abs_lt.mpr ⟨by omega, by omega⟩
  exact sub_eq_zero.mp (Int.eq_zero_of_abs_lt_dvd hd hlt)

/-- `wrap_XLEN(v)` is the unique cell congruent to `v` modulo `2^XLEN` (R12). -/
theorem eq_wrapCell_iff {c : Config} (h : c.wf) {v q : Int} :
    q = wrapCell c v ↔ InCell c q ∧ ((2 ^ c.xlen : Nat) : Int) ∣ v - q := by
  have hcell := wrapCell_inCell h v
  have hd : ((2 ^ c.xlen : Nat) : Int) ∣ v - wrapCell c v := Int.dvd_self_sub_bmod
  constructor
  · rintro rfl
    exact ⟨hcell, hd⟩
  · rintro ⟨hq, hdq⟩
    refine eq_of_inCell_of_dvd_sub h hq hcell ?_
    simpa using dvd_sub hd hdq

theorem toCell_of_inCell {s : State} {v : Int} (h : InCell s.cfg v) : toCell v s = .ok v s :=
  toCell_some (narrow_inCell h)

theorem toCell_of_fault {s : State} {v : Int} (h : ¬ InCell s.cfg v) (hf : s.cfg.overflow = .fault) :
    toCell v s = .raised (s.raise .arithmeticOverflow) :=
  toCell_none (narrow_eq_none.mpr ⟨h, hf⟩)

/-- Under `WRAP` a result, in range or not, narrows to the cell congruent to it. -/
theorem toCell_of_wrap {s : State} {v q : Int} (h : s.cfg.wf) (hw : s.cfg.overflow = .wrap) (hq : InCell s.cfg q)
    (hd : ((2 ^ s.cfg.xlen : Nat) : Int) ∣ v - q) : toCell v s = .ok q s := by
  by_cases hv : InCell s.cfg v
  · rw [toCell_of_inCell hv, eq_of_inCell_of_dvd_sub h hv hq hd]
  · refine toCell_some ?_
    rw [narrow, if_neg hv, hw, (eq_wrapCell_iff h).mpr ⟨hq, hd⟩]

/-- Settles O14: out of range, `FAULT` leaves no cell, and `WRAP` the one that is congruent. -/
theorem toCellNarrowsExactResults : Obligations.ToCellNarrowsExactResults := by
  refine ⟨rfl, by decide, by decide, fun s v h => ⟨toCell_of_inCell, toCell_of_fault, fun _ hw => ?_⟩⟩
  obtain ⟨hcell, hd⟩ := (eq_wrapCell_iff h (v := v)).mp rfl
  exact ⟨wrapCell s.cfg v, toCell_of_wrap h hw hcell hd, fun q => eq_wrapCell_iff h⟩

/-! ## The sum -/

theorem aluAdd_comm (x y : Int) (s : State) : aluAdd x y s = aluAdd y x s := by
  rw [aluAdd, aluAdd, add_comm]

theorem aluAdd_zero {s : State} {x : Int} (h : InCell s.cfg x) : aluAdd x 0 s = .ok x s := by
  rw [aluAdd, add_zero, toCell_of_inCell h]

/-- Settles O15: the sum of two cells is a cell, or `2^XLEN` away from one. -/
theorem aluAddLaws : Obligations.AluAddLaws := by
  intro s x y h hx hy
  have hsym := cellMin_eq_neg_cellMax s.cfg.xlen
  have hpow := two_pow_xlen h
  refine ⟨rfl, by omega, by omega, aluAdd_comm x y s, aluAdd_zero hx, toCell_of_inCell,
    fun hout => ⟨by omega, toCell_of_fault hout⟩, fun hw habove => ?_, fun hw hbelow => ?_⟩
  · exact toCell_of_wrap h hw ⟨by omega, by omega⟩ ⟨1, by ring⟩
  · exact toCell_of_wrap h hw ⟨by omega, by omega⟩ ⟨-1, by ring⟩

/-! ## The product -/

theorem aluMul_comm (x y : Int) (s : State) : aluMul x y s = aluMul y x s := by
  rw [aluMul, aluMul, mul_comm]

theorem aluMul_zero (x : Int) (s : State) : aluMul x 0 s = .ok 0 s := by
  rw [aluMul, mul_zero, toCell_of_inCell (inCell_zero s.cfg)]

theorem aluMul_one {s : State} {x : Int} (h : InCell s.cfg x) : aluMul x 1 s = .ok x s := by
  rw [aluMul, mul_one, toCell_of_inCell h]

theorem aluMul_neg_one (x : Int) (s : State) : aluMul x (-1) s = toCell (-x) s := by
  rw [aluMul, mul_neg_one]

/-- Every cell but `MIN` has its negative among the cells. -/
theorem inCell_neg {c : Config} {x : Int} (h : InCell c x) (hx : x ≠ cellMin c.xlen) : InCell c (-x) := by
  have hsym := cellMin_eq_neg_cellMax c.xlen
  exact ⟨by omega, by omega⟩

theorem not_inCell_neg_cellMin (c : Config) : ¬ InCell c (-cellMin c.xlen) := by
  have hsym := cellMin_eq_neg_cellMax c.xlen
  omega

/-- `-MIN` wraps to `MIN`, from which it is `2^XLEN` away. -/
theorem toCell_neg_cellMin_of_wrap {s : State} (h : s.cfg.wf) (hw : s.cfg.overflow = .wrap) :
    toCell (-cellMin s.cfg.xlen) s = .ok (cellMin s.cfg.xlen) s := by
  have hsym := cellMin_eq_neg_cellMax s.cfg.xlen
  have hpow := two_pow_xlen h
  have hmax := zero_le_cellMax s.cfg.xlen
  exact toCell_of_wrap h hw ⟨le_rfl, by omega⟩ ⟨1, by omega⟩

/-- The document's product, which a cell of 32 bits could not hold. -/
theorem aluMul_of_document {s : State} (h : s.cfg.xlen = 64) :
    aluMul 34915192 34915192 s = .ok 1219070632396864 s := by
  have hcell : InCell s.cfg 1219070632396864 := by
    rw [InCell, h]
    decide
  exact toCell_of_inCell hcell

/-- Settles O16: the product is narrowed, and by -1 it is the negative, which only `MIN` lacks. -/
theorem aluMulLaws : Obligations.AluMulLaws := by
  refine ⟨fun s => aluMul_of_document, fun s x y h hx hy => ⟨rfl, aluMul_comm x y s, aluMul_zero x s, aluMul_one hx,
    fun hmin => ?_, fun hf => ?_, fun hw => ?_, toCell_of_inCell, toCell_of_fault, fun _ hw => ?_⟩⟩
  · rw [aluMul_neg_one, toCell_of_inCell (inCell_neg hx hmin)]
  · rw [aluMul_neg_one, toCell_of_fault (not_inCell_neg_cellMin _) hf]
  · rw [aluMul_neg_one, toCell_neg_cellMin_of_wrap h hw]
  · obtain ⟨hcell, hd⟩ := (eq_wrapCell_iff h (v := x * y)).mp rfl
    exact ⟨wrapCell s.cfg (x * y), toCell_of_wrap h hw hcell hd, hcell, hd⟩

/-! ## The comparisons -/

theorem aluLt_eq_ite (x y : Int) : aluLt x y = if x < y then 1 else 0 := by
  simp [aluLt, truthCell]

theorem aluEq_eq_ite (x y : Int) : aluEq x y = if x = y then 1 else 0 := by
  simp [aluEq, truthCell]

theorem isNonZero_iff {x : Int} : isNonZero x = true ↔ x ≠ 0 := decide_eq_true_iff

/-- Settles O17: each comparison is decided on the integers, and 1 and 0 are cells at every width. -/
theorem comparisonsAreSignedAndTotal : Obligations.ComparisonsAreSignedAndTotal := by
  refine ⟨fun c h => ⟨inCell_one h, inCell_zero c⟩, fun x y => ⟨fun hlt => ?_, fun hle => ?_, fun heq => ?_,
    fun hne => ?_, isNonZero_iff⟩⟩
  · rw [aluLt_eq_ite, if_pos hlt]
  · rw [aluLt_eq_ite, if_neg (not_lt.mpr hle)]
  · rw [aluEq_eq_ite, if_pos heq]
  · rw [aluEq_eq_ite, if_neg hne]

end Sys2Proof.Machine
end

section
/-! PROOFS. ADD and MUL: the shape of format `RRW` as a whole instruction, complete or faulting (40_arithmetic.md R78
and R79). -/

namespace Sys2Proof

/-- The decoder on a word whose opcode is known. -/
theorem decode_of_opcode {w op : Nat} (h : w % 100 = op) :
    decode (w : Int) = .ofOpcode op (modeOf w 1) (modeOf w 2) (modeOf w 3) := by
  rw [decode_eq_ofOpcode, h]

end Sys2Proof

namespace Sys2Proof.Machine

theorem exec_add (m1 m2 m3 : Mode) (s : State) :
    exec (.add m1 m2 m3) s = (threeOperand aluAdd m1 m2 m3 s).outcome := rfl

theorem exec_mul (m1 m2 m3 : Mode) (s : State) :
    exec (.mul m1 m2 m3) s = (threeOperand aluMul m1 m2 m3 s).outcome := rfl

theorem exec_mul_ok {s : State} {m1 m2 m3 : Mode} {a b v : Int} {d : Nat} (h1 : s.source 1 m1 = some a)
    (h2 : s.source 2 m2 = some b) (h3 : s.dest 3 m3 = some d) (hv : narrow s.cfg (a * b) = some v) :
    exec (.mul m1 m2 m3) s = .next (s.afterWrite m1 m2 d v) := by
  rw [exec_mul, threeOperand_ok computes_aluMul h1 h2 h3 hv, Attempt.outcome_ok]

/-- The first fault of a format `RRW` instruction is how the whole instruction ends. -/
theorem threeOperand_outcome_fault {op : Int → Int → State → Attempt Int}
    {result : Config → Int → Int → Option Int} (hop : Computes op result) {s : State} {m1 m2 m3 : Mode} {e : ErrKind}
    (h : s.threeFault (result s.cfg) m1 m2 m3 = some e) :
    ∃ t, (threeOperand op m1 m2 m3 s).outcome = .next t ∧ FaultedWith e s t := by
  obtain ⟨t, ht, hfaulted⟩ := threeOperand_fault hop h
  exact ⟨t, by rw [ht, Attempt.outcome_raised], hfaulted⟩

/-- Settles O21: ADD is format `RRW` with the narrowed sum. -/
theorem addWritesTheSum : Obligations.AddWritesTheSum := by
  refine ⟨fun w hw => decode_of_opcode hw, fun s m1 m2 m3 => ⟨fun a b v d => exec_add_ok, fun e he => ?_⟩⟩
  rw [exec_add]
  exact threeOperand_outcome_fault computes_aluAdd he

/-- Settles O22: MUL is format `RRW` with the narrowed product. -/
theorem mulWritesTheProduct : Obligations.MulWritesTheProduct := by
  refine ⟨fun w hw => decode_of_opcode hw, fun s m1 m2 m3 => ⟨fun a b v d => exec_mul_ok, fun e he => ?_⟩⟩
  rw [exec_mul]
  exact threeOperand_outcome_fault computes_aluMul he

end Sys2Proof.Machine
end

section
/-! PROOFS. The two ports (41_io.md): what `PortIn` returns, INPUT and its hold, OUTPUT, and that no other instruction
uses a port (R81 to R89). -/

namespace Sys2Proof.Machine

/-! ## The input port -/

/-- The port delivers the first waiting answer and takes it, but for `Exhausted`, which stays (R82, R23). -/
theorem portIn_of_waiting {s : State} {first : InAnswer} {rest : List InAnswer} (h : s.inputs = first :: rest) :
    portIn s = some (first.delivered s.cfg, { s with inputs := if first = .exhausted then s.inputs else rest }) := by
  cases s
  cases h
  cases first <;> rfl

/-- Settles O56: `PortIn` returns the first waiting answer as the transport delivers it, and what is delivered is in
range. -/
theorem portInReturnsOnlyCells : Obligations.PortInReturnsOnlyCells := by
  refine fun s => ⟨portIn_eq_none, fun a t h => ?_, fun v rest h hv => ?_, fun v rest h hv => ?_, fun rest h => ?_,
    fun rest h => ⟨_, portIn_of_waiting h⟩, fun rest h => ⟨_, portIn_of_waiting h⟩, fun a hs => hs.answer a⟩
  · obtain ⟨first, rest, -, rfl, rfl⟩ := portIn_some h
    exact ⟨first.delivered_inRange s.cfg, rfl⟩
  · rw [portIn_of_waiting h, InAnswer.delivered_value hv]
    rfl
  · exact ⟨_, by rw [portIn_of_waiting h, InAnswer.delivered_outside hv]⟩
  · exact portIn_of_waiting h

/-! ## INPUT -/

/-- A bad destination ends INPUT before the port is asked (R86). -/
theorem exec_input_fault {s : State} {e : ErrKind} (h : s.destFault 1 .position = some e) :
    ∃ t, exec .input s = .next t ∧ FaultedWith e s t := by
  obtain ⟨n, hn⟩ := writeAddr_fault h
  exact ⟨_, by simp only [exec, execInput, inputAddr_eq, hn], faultedWith_raise_growTo s n e⟩

section
variable {s : State} {d : Nat} (hd : s.inputDest = some d)
include hd

/-- While the port is silent, INPUT gives the same state again (R83). -/
theorem exec_input_silent (hin : s.inputs = []) : exec .input s = .next s := by
  have hport : portIn (s.growTo (s.ip + 2)) = none := portIn_eq_none.mpr hin
  simp only [exec, execInput, inputAddr_ok hd, hport]

/-- With a good destination, INPUT deals with the first waiting answer as the transport delivers it. -/
theorem exec_input_answered {first : InAnswer} {rest : List InAnswer} (hin : s.inputs = first :: rest) :
    exec .input s = (storeInput d (first.delivered s.cfg) (State.growTo
      { s with inputs := if first = .exhausted then s.inputs else rest } (s.ip + 2))).outcome := by
  have hport := portIn_of_waiting (s := s.growTo (s.ip + 2)) hin
  simp only [exec, execInput, inputAddr_ok hd, hport]
  rfl

theorem exec_input_value {v : Int} {rest : List InAnswer} (hin : s.inputs = .value v :: rest) (hv : InCell s.cfg v) :
    exec .input s =
      .next { s with ip := s.ip + 2, inputs := rest, mem := (s.mem.growTo (s.ip + 2)).store d v } := by
  obtain ⟨-, -, hlt⟩ := dest_some hd
  rw [exec_input_answered hd hin, InAnswer.delivered_value hv, storeInput, memWrite_legal (by simpa using hlt)]
  rfl

theorem exec_input_exhausted {rest : List InAnswer} (hin : s.inputs = .exhausted :: rest) :
    ∃ t, exec .input s = .next t ∧ FaultedWith .missingInput s t :=
  ⟨_, exec_input_answered hd hin, faultedWith_raise_growTo s ..⟩

theorem exec_input_transportError {rest : List InAnswer} (hin : s.inputs = .transportError :: rest) :
    ∃ t left, exec .input s = .next t ∧ FaultedWith .ioTransportFailure { s with inputs := left } t :=
  ⟨_, rest, exec_input_answered hd hin, faultedWith_raise_growTo { s with inputs := rest } ..⟩

/-- Whatever the transport delivers as `ParseError`, a value that is no cell included (R82). -/
theorem exec_input_parseError {first : InAnswer} {rest : List InAnswer} (hin : s.inputs = first :: rest)
    (hparse : first.delivered s.cfg = .parseError) :
    ∃ t left, exec .input s = .next t ∧ FaultedWith .ioParseFailure { s with inputs := left } t := by
  have hexec := exec_input_answered hd hin
  rw [hparse] at hexec
  exact ⟨_, _, hexec, faultedWith_raise_growTo ..⟩

end

/-- Settles O30: one clause per answer of the port, and the destination's fault. -/
theorem inputStoresTheAnswer : Obligations.InputStoresTheAnswer := by
  refine ⟨fun w hw => decode_of_opcode hw, fun s => ⟨fun d hd => ⟨?_, ?_, ?_, ?_, ?_⟩, fun e => exec_input_fault⟩⟩
  · exact fun v rest hin hv => exec_input_value hd hin hv
  · exact fun v rest hin hv => exec_input_parseError hd hin (InAnswer.delivered_outside hv)
  · exact fun rest hin => exec_input_exhausted hd hin
  · exact fun rest hin => exec_input_transportError hd hin
  · exact fun rest hin => exec_input_parseError hd hin rfl

/-- An instruction that can run stands on a canonical tape, since beyond it every word is 0: its fetch grows nothing. -/
theorem step_of_decode_ne {s : State} {i : Instr} (hwf : s.mem.wf) (hr : s.run = .running)
    (hip : s.ip < s.cfg.addrLimit) (hi : decode (s.mem.cell s.ip) = i) (hne : i ≠ .illegalOpcode 0) :
    step s = exec i s := by
  have hlen : s.ip + 1 ≤ s.mem.len := by
    by_contra hlt
    rw [Memory.cell_of_len_le hwf (by omega), decode_zero] at hi
    exact hne hi.symm
  rw [step_of_ip_lt hr hip, hi, State.growTo_of_le hlen]

/-- Settles O31: an answer changes the source alone, so the engine that was held runs INPUT again with that answer
waiting. -/
theorem inputHoldsUntilTheAnswer : Obligations.InputHoldsUntilTheAnswer := by
  intro s d hs hr hip hi hd hin
  have hstep : ∀ a, step (s.answer a) = exec .input (s.answer a) := fun a =>
    step_of_decode_ne (s := s.answer a) hs.memWf hr hip hi Instr.noConfusion
  have hd' : ∀ a, (s.answer a).inputDest = some d := fun _ => hd
  have hin' : ∀ a, (s.answer a).inputs = [a.delivered s.cfg] := fun a => by rw [State.answer_inputs, hin, List.nil_append]
  have hparse : ∀ a, a.delivered s.cfg = .parseError →
      ∃ t left, step (s.answer a) = .next t ∧ FaultedWith .ioParseFailure { s with inputs := left } t := by
    intro a ha
    rw [hstep]
    exact exec_input_parseError (hd' a) ((hin' a).trans (by rw [ha])) rfl
  refine ⟨?_, fun v hv => ?_, ?_, ?_, ?_⟩
  · rw [step_of_decode_ne hs.memWf hr hip hi Instr.noConfusion, exec_input_silent hd hin]
  · rw [hstep, exec_input_value (hd' _) ((hin' _).trans (by rw [InAnswer.delivered_value hv])) hv, ← hin]
    rfl
  · rw [hstep]
    exact exec_input_exhausted (hd' _) (hin' _)
  · rw [hstep]
    exact exec_input_transportError (hd' _) (hin' _)
  · rintro a (rfl | ⟨v, rfl, hv⟩)
    · exact hparse _ rfl
    · exact hparse _ (InAnswer.delivered_outside hv)

theorem inputDest_of_raw {s : State} {d : Nat} (hk : s.ip + 1 < s.cfg.addrLimit)
    (hraw : s.mem.cell (s.ip + 1) = (d : Int)) (hd : d < s.cfg.addrLimit) : s.inputDest = some d := by
  have hnamed : s.namedAddr 1 .position = some (d : Int) := congrArg some hraw
  rw [State.inputDest, State.dest, if_pos hk, operandAddr_of_legal hnamed ⟨by omega, by omega⟩, Int.toNat_natCast]

/-- Settles O32: the decoder keeps no mode of INPUT, and the step is the fetch and then the store. -/
theorem inputIgnoresItsModeDigit : Obligations.InputIgnoresItsModeDigit := by
  intro s w d v rest hr hw hop hk hraw hd hin hv
  have hdest : (s.growTo (s.ip + 1)).inputDest = some d :=
    (State.dest_growTo ..).trans (inputDest_of_raw hk hraw hd)
  have hdecode : decode (w : Int) = .input := decode_of_opcode hop
  rw [step_of_ip_lt hr (by omega), hw, hdecode, exec_input_value hdest hin hv]
  simp [State.growTo]

/-! ## OUTPUT -/

/-- An operand that resolves is handed to the port, and OUTPUT deals with the port's answer (R88). -/
theorem exec_output_answered {s u : State} {m1 : Mode} {a : Int} {answer : OutAnswer} (h : s.source 1 m1 = some a)
    (hport : portOut a (s.growTo (s.reach 1 m1)) = (answer, u)) :
    exec (.output m1) s = (afterOutput answer u).outcome := by
  simp only [exec, execOutput, readOperand_ok h, Attempt.andThen_ok, hport]

theorem exec_output_fault {s : State} {m1 : Mode} {e : ErrKind} (h : s.sourceFault 1 m1 = some e) :
    ∃ t, exec (.output m1) s = .next t ∧ FaultedWith e s t := by
  obtain ⟨n, hn⟩ := readOperand_fault h
  exact ⟨_, by simp only [exec, execOutput, hn, Attempt.andThen_raised, Attempt.outcome_raised],
    faultedWith_raise_growTo s n e⟩

theorem portOut_of_empty {s : State} (v : Int) (h : s.sink = []) : portOut v s = (.accepted, s.record v) := by
  rw [portOut, h]

theorem portOut_of_accepted {s : State} {rest : List OutAnswer} (v : Int) (h : s.sink = .accepted :: rest) :
    portOut v s = (.accepted, { s with sink := rest, outputs := s.outputs ++ [v] }) := by
  rw [portOut, h]
  rfl

theorem portOut_of_transportError {s : State} {b : Bool} {rest : List OutAnswer} (v : Int)
    (h : s.sink = .transportError b :: rest) :
    portOut v s = (.transportError b,
      { s with sink := rest, outputs := if b then s.outputs ++ [v] else s.outputs }) := by
  cases b <;> rw [portOut, h] <;> rfl

/-- Settles O33: one clause per answer of the port, and the operand's fault. -/
theorem outputDeliversTheValue : Obligations.OutputDeliversTheValue := by
  refine ⟨fun w hw => decode_of_opcode hw, fun s m1 => ⟨fun a ha => ⟨?_, ?_, ?_⟩, fun e => exec_output_fault⟩⟩
  · exact fun hsink => exec_output_answered ha (portOut_of_empty a hsink)
  · exact fun rest hsink => exec_output_answered ha (portOut_of_accepted a hsink)
  · exact fun rest b hsink => exec_output_answered ha (portOut_of_transportError a hsink)

/-! ## The other instructions -/

/-- An instruction that is neither INPUT nor OUTPUT leaves both ports alone (R81). -/
theorem exec_ports {i : Instr} {s t : State} (h : exec i s = .next t) :
    (t.inputs = s.inputs ∧ t.outputs = s.outputs ∧ t.sink = s.sink) ∨ i = .input ∨ ∃ m, i = .output m := by
  rcases instr_shapes i with ⟨m1, m2, m3, hi⟩ | ⟨m1, m2, hi⟩ | rfl | ⟨m, rfl⟩ | ⟨m, rfl⟩ | rfl | ⟨op, rfl⟩ | ⟨w, rfl⟩
  · obtain ⟨-, -, hin, hout, hsink, -⟩ := threeOperandFrame s t m1 m2 m3 i hi h
    exact .inl ⟨hin, hout, hsink⟩
  · obtain ⟨-, -, hin, hout, hsink, -⟩ := jump_frame hi h
    exact .inl ⟨hin, hout, hsink⟩
  · exact .inr (.inl rfl)
  · exact .inr (.inr ⟨m, rfl⟩)
  · obtain ⟨-, hin, hout, hsink, -⟩ := adjustRelBaseFrame s t m h
    exact .inl ⟨hin, hout, hsink⟩
  all_goals
    cases h
    exact .inl ⟨rfl, rfl, rfl⟩

/-- INPUT takes the first waiting answer, or none. -/
theorem exec_input_inputs {s t : State} (h : exec .input s = .next t) :
    t.inputs = s.inputs ∨ t.inputs = s.inputs.tail := by
  rcases exec_input_cases h with ⟨e, -, n, -, rfl⟩ | ⟨d, -, hcases⟩
  · exact .inl rfl
  · rcases hcases with ⟨-, rfl⟩ | ⟨v, rest, hin, -, rfl⟩ | ⟨rest, -, n, -, rfl⟩ | ⟨rest, hin, n, -, rfl⟩ |
      ⟨first, rest, hin, -, n, -, rfl⟩
    · exact .inl rfl
    · exact .inr (by rw [hin, List.tail_cons])
    · exact .inl rfl
    · exact .inr (by rw [hin, List.tail_cons])
    · exact .inr (by rw [hin, List.tail_cons])

/-- OUTPUT appends its value to the record, or nothing, and takes the first answer of the sink, or none. -/
theorem exec_output_outputs_sink {s t : State} {m1 : Mode} (h : exec (.output m1) s = .next t) :
    (t.outputs = s.outputs ∨ ∃ v, t.outputs = s.outputs ++ [v]) ∧ (t.sink = s.sink ∨ t.sink = s.sink.tail) := by
  rcases exec_output_cases h with ⟨a, rest, -, hsink, rfl⟩ | ⟨a, rest, b, -, hsink, rfl⟩ | ⟨e, -, n, -, rfl⟩
  · refine ⟨.inr ⟨a, rfl⟩, .inr ?_⟩
    rcases hsink with hs | ⟨hs, rfl⟩
    · rw [hs, List.tail_cons]
    · rw [hs, List.tail_nil]
  · refine ⟨?_, .inr (by rw [hsink, List.tail_cons])⟩
    cases b with
    | true => exact .inr ⟨a, rfl⟩
    | false => exact .inl rfl
  · exact ⟨.inl rfl, .inl rfl⟩

/-- Settles O46: the fetch uses no port, and of the instructions INPUT uses the one and OUTPUT the other. -/
theorem onlyInputAndOutputUseThePorts : Obligations.OnlyInputAndOutputUseThePorts := by
  intro s t h
  obtain ⟨-, ⟨-, hx⟩ | ⟨-, rfl⟩⟩ := step_cases h
  · generalize decode (s.mem.cell s.ip) = i at hx
    rcases exec_ports hx with ⟨hin, hout, hsink⟩ | rfl | ⟨m, rfl⟩
    · exact ⟨.inl hin, .inl hout, .inl hsink⟩
    · obtain ⟨-, -, hout, hsink, -⟩ := inputFrame _ t hx
      exact ⟨(exec_input_inputs hx).imp_right (.intro rfl), .inl hout, .inl hsink⟩
    · obtain ⟨-, -, hin, -⟩ := outputFrame _ t m hx
      obtain ⟨hout, hsink⟩ := exec_output_outputs_sink hx
      exact ⟨.inl hin, hout.imp_right (.intro ⟨m, rfl⟩), hsink.imp_right (.intro ⟨m, rfl⟩)⟩
  · exact ⟨.inl rfl, .inl rfl, .inl rfl⟩

end Sys2Proof.Machine
end

section
/-! PROOFS. The jumps (42_jumps.md R91 to R94): both are one shape with opposite conditions, and a target is checked in
the jump or in the next fetch. -/

namespace Sys2Proof.Machine

/-! ## The conditions -/

theorem jumpTaken_jumpIfTrue {m1 m2 : Mode} {a : Int} : JumpTaken (.jumpIfTrue m1 m2) m1 m2 a ↔ a ≠ 0 := by
  simp [JumpTaken]

theorem jumpTaken_jumpIfFalse {m1 m2 : Mode} {a : Int} : JumpTaken (.jumpIfFalse m1 m2) m1 m2 a ↔ a = 0 := by
  simp [JumpTaken]

/-! ## Both jumps at once -/

section
variable {i : Instr} {s : State} {m1 m2 : Mode} (hi : i ∈ [.jumpIfTrue m1 m2, .jumpIfFalse m1 m2])
include hi

/-- Either jump is format `RR` with its own test of the first operand (R91). -/
theorem exec_jump_eq_conditionalJump (s : State) : ∃ taken : Int → Bool,
    (∀ a, taken a = true ↔ JumpTaken i m1 m2 a) ∧ exec i s = (conditionalJump taken m1 m2 s).outcome := by
  rw [List.mem_pair] at hi
  rcases hi with rfl | rfl
  · exact ⟨isNonZero, fun a => by rw [isNonZero_iff, jumpTaken_jumpIfTrue], rfl⟩
  · exact ⟨fun a => !isNonZero a, fun a => by simp [isNonZero, jumpTaken_jumpIfFalse], rfl⟩

/-- The operands are resolved before the condition is looked at, so their fault is the jump's, taken or not (R91). -/
theorem exec_jump_fault {e : ErrKind} (h : s.twoFault m1 m2 = some e) :
    ∃ t, exec i s = .next t ∧ FaultedWith e s t := by
  obtain ⟨taken, -, hexec⟩ := exec_jump_eq_conditionalJump hi s
  obtain ⟨t, ht, hfaulted⟩ := conditionalJump_fault taken h
  exact ⟨t, by rw [hexec, ht, Attempt.outcome_raised], hfaulted⟩

variable {a b : Int} (h1 : s.source 1 m1 = some a) (h2 : s.source 2 m2 = some b)
include h1 h2

theorem exec_jump_taken (h : JumpTaken i m1 m2 a) (hb : 0 ≤ b) :
    exec i s = .next ((s.growTo (max (s.reach 1 m1) (s.reach 2 m2))).jump b.toNat) := by
  obtain ⟨taken, htaken, hexec⟩ := exec_jump_eq_conditionalJump hi s
  rw [hexec, conditionalJump_ok taken h1 h2]
  simp only [(htaken a).mpr h, if_true, if_neg (not_lt.mpr hb), Attempt.outcome_ok]

theorem exec_jump_taken_negative (h : JumpTaken i m1 m2 a) (hb : b < 0) :
    ∃ t, exec i s = .next t ∧ FaultedWith .negativeAddress s t := by
  obtain ⟨taken, htaken, hexec⟩ := exec_jump_eq_conditionalJump hi s
  refine ⟨_, ?_, faultedWith_raise_growTo s (max (s.reach 1 m1) (s.reach 2 m2)) _⟩
  rw [hexec, conditionalJump_ok taken h1 h2]
  simp only [(htaken a).mpr h, if_true, if_pos hb, Attempt.outcome_raised]

theorem exec_jump_not_taken (h : ¬ JumpTaken i m1 m2 a) :
    exec i s = .next ((s.growTo (max (s.reach 1 m1) (s.reach 2 m2))).advance 3) := by
  obtain ⟨taken, htaken, hexec⟩ := exec_jump_eq_conditionalJump hi s
  rw [hexec, conditionalJump_ok taken h1 h2]
  simp only [mt (htaken a).mp h, Bool.false_eq_true, if_false, Attempt.outcome_ok]

end

/-- Settles O25: both jumps' rules, with the condition `a ≠ 0`. -/
theorem jumpIfTrueJumps : Obligations.JumpIfTrueJumps := by
  refine ⟨fun w hw => decode_of_opcode hw, fun s m1 m2 => ?_⟩
  have hi : Instr.jumpIfTrue m1 m2 ∈ [.jumpIfTrue m1 m2, .jumpIfFalse m1 m2] := List.mem_pair.mpr (.inl rfl)
  refine ⟨fun a b h1 h2 => ⟨fun ha hb => ?_, fun ha hb => ?_, fun ha => ?_⟩, fun e he => exec_jump_fault hi he⟩
  · exact exec_jump_taken hi h1 h2 (jumpTaken_jumpIfTrue.mpr ha) hb
  · exact exec_jump_taken_negative hi h1 h2 (jumpTaken_jumpIfTrue.mpr ha) hb
  · exact exec_jump_not_taken hi h1 h2 (mt jumpTaken_jumpIfTrue.mp (not_not.mpr ha))

/-- Settles O26: both jumps' rules, with the condition `a = 0`. -/
theorem jumpIfFalseJumps : Obligations.JumpIfFalseJumps := by
  refine ⟨fun w hw => decode_of_opcode hw, fun s m1 m2 => ?_⟩
  have hi : Instr.jumpIfFalse m1 m2 ∈ [.jumpIfTrue m1 m2, .jumpIfFalse m1 m2] := List.mem_pair.mpr (.inr rfl)
  refine ⟨fun a b h1 h2 => ⟨fun ha hb => ?_, fun ha hb => ?_, fun ha => ?_⟩, fun e he => exec_jump_fault hi he⟩
  · exact exec_jump_taken hi h1 h2 (jumpTaken_jumpIfFalse.mpr ha) hb
  · exact exec_jump_taken_negative hi h1 h2 (jumpTaken_jumpIfFalse.mpr ha) hb
  · exact exec_jump_not_taken hi h1 h2 (mt jumpTaken_jumpIfFalse.mp ha)

/-! ## Where a jump leads -/

/-- A fetch beyond a canonical tape, but below the limit, reads 0, which is no instruction. -/
theorem step_of_len_le_ip {s : State} (hwf : s.mem.wf) (hr : s.run = .running) (hlen : s.mem.len ≤ s.ip)
    (hip : s.ip < s.cfg.addrLimit) : step s = .next ((s.growTo (s.ip + 1)).raise .invalidOpCode) := by
  rw [step_of_ip_lt hr hip, Memory.cell_of_len_le hwf hlen, decode_zero, exec_illegalOpcode]

/-- Settles O27: a negative target is the jump's own fault; any other is written to `ip` over the same cells, and the
next fetch alone looks at it. -/
theorem jumpTargetIsCheckedWhereItIsUsed : Obligations.JumpTargetIsCheckedWhereItIsUsed := by
  intro s m1 m2 i a b hi hwf hr h1 h2
  refine ⟨fun htaken => ⟨fun hneg => ?_, fun hb => ?_⟩, fun hnot => ?_⟩
  · obtain ⟨t, ht, n, -, rfl⟩ := exec_jump_taken_negative hi h1 h2 htaken hneg
    exact ⟨_, ht, rfl, rfl, rfl⟩
  · have hexec := exec_jump_taken hi h1 h2 htaken hb
    generalize max (s.reach 1 m1) (s.reach 2 m2) = n at hexec
    refine ⟨_, hexec, Int.toNat_of_nonneg hb, fun hlim => ?_, fun hlt hlen => ?_, fun hlt => ?_⟩
    · exact step_of_limit_le_ip hr ((Int.le_toNat hb).mpr hlim)
    · exact step_of_len_le_ip (Memory.growTo_wf n hwf) hr ((Int.le_toNat hb).mpr hlen) ((Int.toNat_lt hb).mpr hlt)
    · have hcell : ((s.growTo n).jump b.toNat).mem.cell b.toNat = s.mem.cell b.toNat := Memory.growTo_cell ..
      rw [← hcell]
      exact step_of_ip_lt hr ((Int.toNat_lt hb).mpr hlt)
  · exact ⟨_, exec_jump_not_taken hi h1 h2 hnot, rfl, hr⟩

end Sys2Proof.Machine
end

section
/-! PROOFS. LESS-THAN and EQUALS: format `RRW` with a result that is always a cell, so that every fault is one of a
parameter (43_compare.md R97 to R99). -/

namespace Sys2Proof.Machine

theorem exec_lessThan (m1 m2 m3 : Mode) (s : State) :
    exec (.lessThan m1 m2 m3) s = (threeOperand (fun a b s => .ok (aluLt a b) s) m1 m2 m3 s).outcome := rfl

theorem exec_equals (m1 m2 m3 : Mode) (s : State) :
    exec (.equals m1 m2 m3) s = (threeOperand (fun a b s => .ok (aluEq a b) s) m1 m2 m3 s).outcome := rfl

theorem exec_lessThan_ok {s : State} {m1 m2 m3 : Mode} {a b : Int} {d : Nat} (h1 : s.source 1 m1 = some a)
    (h2 : s.source 2 m2 = some b) (h3 : s.dest 3 m3 = some d) :
    exec (.lessThan m1 m2 m3) s = .next (s.afterWrite m1 m2 d (if a < b then 1 else 0)) := by
  rw [exec_lessThan, threeOperand_ok computes_aluLt h1 h2 h3 rfl, Attempt.outcome_ok, aluLt_eq_ite]

theorem exec_equals_ok {s : State} {m1 m2 m3 : Mode} {a b : Int} {d : Nat} (h1 : s.source 1 m1 = some a)
    (h2 : s.source 2 m2 = some b) (h3 : s.dest 3 m3 = some d) :
    exec (.equals m1 m2 m3) s = .next (s.afterWrite m1 m2 d (if a = b then 1 else 0)) := by
  rw [exec_equals, threeOperand_ok computes_aluEq h1 h2 h3 rfl, Attempt.outcome_ok, aluEq_eq_ite]

/-- The first fault depends on the result only through where it overflows. -/
theorem threeFault_congr {result result' : Int → Int → Option Int}
    (h : ∀ a b, result a b = none ↔ result' a b = none) (s : State) (m1 m2 m3 : Mode) :
    s.threeFault result m1 m2 m3 = s.threeFault result' m1 m2 m3 := by
  simp only [State.threeFault, h]

/-- An operation that always gives a value adds no fault of its own: the instruction ends in its parameters' first
fault, for which `some 0` stands as the result. -/
theorem threeOperand_outcome_fault_of_total {op : Int → Int → State → Attempt Int} {value : Int → Int → Int}
    (hop : Computes op fun _ a b => some (value a b)) {s : State} {m1 m2 m3 : Mode} {e : ErrKind}
    (h : s.threeFault (fun _ _ => some 0) m1 m2 m3 = some e) :
    ∃ t, (threeOperand op m1 m2 m3 s).outcome = .next t ∧ FaultedWith e s t := by
  have hsame : s.threeFault (fun a b => some (value a b)) m1 m2 m3 = s.threeFault (fun _ _ => some 0) m1 m2 m3 :=
    threeFault_congr (fun a b => iff_of_false (Option.some_ne_none _) (Option.some_ne_none _)) s m1 m2 m3
  exact threeOperand_outcome_fault hop (hsame.trans h)

/-- Settles O23: LESS-THAN is format `RRW` with the truth value of `a < b`. -/
theorem lessThanWritesTheTruth : Obligations.LessThanWritesTheTruth := by
  refine ⟨fun w hw => decode_of_opcode hw, fun s m1 m2 m3 => ⟨fun a b d => exec_lessThan_ok, fun e he => ?_⟩⟩
  rw [exec_lessThan]
  exact threeOperand_outcome_fault_of_total computes_aluLt he

/-- Settles O24: EQUALS is format `RRW` with the truth value of `a = b`. -/
theorem equalsWritesTheTruth : Obligations.EqualsWritesTheTruth := by
  refine ⟨fun w hw => decode_of_opcode hw, fun s m1 m2 m3 => ⟨fun a b d => exec_equals_ok, fun e he => ?_⟩⟩
  rw [exec_equals]
  exact threeOperand_outcome_fault_of_total computes_aluEq he

end Sys2Proof.Machine
end

section
/-! PROOFS. ADJUST-RELATIVE-BASE with `REL_EN`, and what its absence leaves of relative addressing (44_relbase.md R102
to R104). -/

namespace Sys2Proof.Machine

section
variable {s : State} (hen : s.cfg.relEn = true) {m1 : Mode}
include hen

/-- An operand that resolves is added to the old `rel_base`, which reading it has not changed (R102). -/
theorem exec_adjustRelBase_resolved {a : Int} (ha : s.source 1 m1 = some a) :
    exec (.adjustRelBase m1) s = ((aluAdd s.relBase a (s.growTo (s.reach 1 m1))).andThen fun v s =>
      .ok () ((s.setRelBase v).advance 2)).outcome := by
  simp only [exec, execAdjustRelBase, if_pos hen, readOperand_ok ha, Attempt.andThen_ok, State.growTo_relBase]

theorem exec_adjustRelBase_ok {a v : Int} (ha : s.source 1 m1 = some a)
    (hv : narrow s.cfg (s.relBase + a) = some v) :
    exec (.adjustRelBase m1) s =
      .next { s with relBase := v, ip := s.ip + 2, mem := s.mem.growTo (s.reach 1 m1) } := by
  rw [exec_adjustRelBase_resolved hen ha, aluAdd, toCell_some (s := s.growTo (s.reach 1 m1)) hv]
  rfl

/-- A sum that does not narrow is raised before `rel_base` and `ip` are written (R103). -/
theorem exec_adjustRelBase_overflow {a : Int} (ha : s.source 1 m1 = some a)
    (hv : narrow s.cfg (s.relBase + a) = none) :
    ∃ t, exec (.adjustRelBase m1) s = .next t ∧ FaultedWith .arithmeticOverflow s t := by
  rw [exec_adjustRelBase_resolved hen ha, aluAdd, toCell_none (s := s.growTo (s.reach 1 m1)) hv]
  exact ⟨_, rfl, faultedWith_raise_growTo s ..⟩

theorem exec_adjustRelBase_fault {e : ErrKind} (h : s.sourceFault 1 m1 = some e) :
    ∃ t, exec (.adjustRelBase m1) s = .next t ∧ FaultedWith e s t := by
  obtain ⟨n, hn⟩ := readOperand_fault h
  exact ⟨_, by simp only [exec, execAdjustRelBase, if_pos hen, hn, Attempt.andThen_raised, Attempt.outcome_raised],
    faultedWith_raise_growTo s n e⟩

end

/-- Settles O28: the operand resolves and the sum narrows, or the sum overflows, or the operand faults. -/
theorem adjustRelBaseAdds : Obligations.AdjustRelBaseAdds :=
  ⟨fun _ hw => decode_of_opcode hw, fun _ _ hen =>
    ⟨fun _ _ => exec_adjustRelBase_ok hen, fun _ => exec_adjustRelBase_overflow hen,
      fun _ => exec_adjustRelBase_fault hen⟩⟩

/-- Without `REL_EN` opcode 9 does not exist (R104). -/
theorem exec_adjustRelBase_of_not_relEn {s : State} (hdis : s.cfg.relEn = false) (m : Mode) :
    exec (.adjustRelBase m) s = .next (s.raise .invalidOpCode) :=
  if_neg (Bool.eq_false_iff.mp hdis)

/-- Settles O29: mode 2 is refused and opcode 9 raises; every other instruction keeps `rel_base` in any case. -/
theorem withoutRelEnNothingIsRelative : Obligations.WithoutRelEnNothingIsRelative := by
  refine ⟨rfl, fun s hdis => ⟨fun k => ?_, exec_adjustRelBase_of_not_relEn hdis, fun w hw hr hip hword => ?_,
    fun i t h => ?_⟩⟩
  · have hrefused : RefusedMode s.cfg .relative := .inr ⟨rfl, hdis⟩
    exact ⟨readOperand_of_refused k hrefused, writeAddr_of_refused k hrefused⟩
  · have hdecode : decode (w : Int) = .adjustRelBase (modeOf w 1) := decode_of_opcode hw
    have hdis' : (s.growTo (s.ip + 1)).cfg.relEn = false := hdis
    rw [step_of_ip_lt hr hip, hword, hdecode, exec_adjustRelBase_of_not_relEn hdis']
  · rcases exec_relBase h with hkeeps | ⟨m, rfl⟩
    · exact hkeeps
    · rw [exec_adjustRelBase_of_not_relEn hdis] at h
      cases h
      rfl

end Sys2Proof.Machine
end

section
/-! PROOFS. HALT, the opcode values that are no instruction, and HALT as the only way a run ends well
(45_halt_and_invalid.md R105 to R108). -/

namespace Sys2Proof

theorem decode_illegalOpcode {w : Nat} (h : illegalOpcodeValue (w % 100) = true) :
    decode (w : Int) = .illegalOpcode (w % 100) := by
  rw [decode_eq_ofOpcode, Instr.ofOpcode_illegal _ _ _ h]

end Sys2Proof

namespace Sys2Proof.Machine

theorem exec_halt (s : State) : exec .halt s = .next { s with run := .halted } := rfl

/-- Settles O34: opcode 99 examines no mode, and HALT writes `run` alone. -/
theorem haltHalts : Obligations.HaltHalts :=
  ⟨fun _ hw => decode_of_opcode hw, exec_halt⟩

/-- Settles O35: the fetch is the one read of an illegal word, whose instruction is the fault; without `REL_EN` opcode 9
is such a word too. -/
theorem otherOpcodesRaiseInvalidOpCode : Obligations.OtherOpcodesRaiseInvalidOpCode := by
  have hdecode (w : Nat) (hw : w % 100 = 0 ∨ (10 ≤ w % 100 ∧ w % 100 ≤ 98)) :
      decode (w : Int) = .illegalOpcode (w % 100) := decode_illegalOpcode (illegalOpcodeValue_iff.mpr hw)
  refine ⟨hdecode, fun s op => exec_illegalOpcode op s, fun s w hr hip hword hw => ?_⟩
  rcases or_assoc.mpr hw with hillegal | ⟨hnine, hdis⟩
  · rw [step_of_ip_lt hr hip, hword, hdecode w hillegal, exec_illegalOpcode]
  · obtain ⟨-, hwithout⟩ := withoutRelEnNothingIsRelative
    obtain ⟨-, -, hstep, -⟩ := hwithout s hdis
    exact hstep w hnine hr hip hword

/-- An instruction other than HALT keeps `run`, or fails: each by its own frame. -/
theorem exec_run {i : Instr} {s t : State} (h : exec i s = .next t) :
    i = .halt ∨ t.run = s.run ∨ t.run = .failed := by
  rcases instr_shapes i with ⟨m1, m2, m3, hi⟩ | ⟨m1, m2, hi⟩ | rfl | ⟨m, rfl⟩ | ⟨m, rfl⟩ | rfl | ⟨op, rfl⟩ | ⟨w, rfl⟩
  · obtain ⟨-, -, -, -, -, hrun, -⟩ := threeOperandFrame s t m1 m2 m3 i hi h
    exact .inr (hrun.imp And.left And.left)
  · obtain ⟨-, -, -, -, -, hrun, -⟩ := jump_frame hi h
    exact .inr (hrun.imp And.left And.left)
  · obtain ⟨-, -, -, -, hrun, -⟩ := inputFrame s t h
    exact .inr (hrun.imp And.left And.left)
  · obtain ⟨-, -, -, hrun, -⟩ := outputFrame s t m h
    exact .inr (hrun.imp And.left And.left)
  · obtain ⟨-, -, -, -, hrun, -⟩ := adjustRelBaseFrame s t m h
    exact .inr (hrun.imp And.left And.left)
  · exact .inl rfl
  all_goals
    cases h
    exact .inr (.inr rfl)

theorem exec_run_halted_iff {i : Instr} {s t : State} (hr : s.run = .running) (h : exec i s = .next t) :
    t.run = .halted ↔ i = .halt := by
  constructor
  · intro hhalted
    rcases exec_run h with hi | hkept | hfailed
    · exact hi
    · simp [hhalted, hr] at hkept
    · simp [hhalted] at hfailed
  · rintro rfl
    cases h
    rfl

/-- Settles O45: a fetched word ends the run well exactly when it is HALT, and a fetch that faults ends in FAILED. -/
theorem onlyHaltEndsARunWell : Obligations.OnlyHaltEndsARunWell := by
  intro s t h
  obtain ⟨hr, ⟨hip, hx⟩ | ⟨hip, rfl⟩⟩ := step_cases h
  · rw [exec_run_halted_iff (s := s.growTo (s.ip + 1)) hr hx, and_iff_right hip]
  · exact iff_of_false (by simp) fun hfetched => not_lt.mpr hip hfetched.left

end Sys2Proof.Machine
end

section
/-! PROOFS. Faults: which instruction raises which kind, and from what (60_exceptions.md R111 to R114); and the state a
fault leaves (R116, R117). -/

namespace Sys2Proof.Machine

/-! ## What raises each kind -/

/-- What raises a fault of kind `e` in the instruction `i`, executed in `s`: the table of R111 to R114. -/
abbrev FaultCause (s : State) (i : Instr) (e : ErrKind) : Prop :=
  match e with
  | .invalidOpCode => (∃ op, i = .illegalOpcode op) ∨ (∃ w, i = .negativeWord w) ∨
      ((∃ m, i = .adjustRelBase m) ∧ s.cfg.relEn = false)
  | .invalidParameterMode => (∃ m ∈ sourceModes i, RefusedMode s.cfg m) ∨
      (∃ m, destMode i = some m ∧ (m = .immediate ∨ RefusedMode s.cfg m))
  | .missingInput => i = .input ∧ ∃ rest, s.inputs = .exhausted :: rest
  | .ioParseFailure => i = .input ∧ ∃ a rest, s.inputs = a :: rest ∧ a.delivered s.cfg = .parseError
  | .ioTransportFailure => (i = .input ∧ ∃ rest, s.inputs = .transportError :: rest) ∨
      ((∃ m, i = .output m) ∧ ∃ b rest, s.sink = .transportError b :: rest)
  | .negativeAddress => .position ∈ paramModes i ∨ (.relative ∈ paramModes i ∧ s.cfg.relEn = true) ∨
      i = .input ∨ ∃ m1 m2 a b, s.source 1 m1 = some a ∧ s.source 2 m2 = some b ∧ b < 0 ∧ JumpTaken i m1 m2 a
  | .addressOutOfRange => i = .input ∨ sourceModes i ≠ []
  | .arithmeticOverflow => s.cfg.overflow = .fault ∧
      ((∃ m1 m2 m3, i = .add m1 m2 m3 ∨ i = .mul m1 m2 m3) ∨ (∃ m, i = .adjustRelBase m) ∨
        (.relative ∈ paramModes i ∧ s.cfg.relEn = true))

theorem mem_paramModes {i : Instr} {m : Mode} : m ∈ paramModes i ↔ m ∈ sourceModes i ∨ destMode i = some m := by
  simp [paramModes]

/-- An instruction with a parameter has a source parameter: the four with a destination have two (R54). -/
theorem sourceModes_ne_nil {i : Instr} {m : Mode} (h : m ∈ paramModes i) : sourceModes i ≠ [] := by
  cases i <;> simp_all [paramModes, sourceModes, destMode]

section
variable {s : State} {i : Instr} {e : ErrKind} {m : Mode}

/-- The four kinds that any parameter can meet. -/
theorem FaultCause.of_param (hm : m ∈ paramModes i) (h : SourceKind s.cfg m e) : FaultCause s i e := by
  rcases h with ⟨rfl, hrefused⟩ | rfl | ⟨rfl, rfl | ⟨rfl, hen⟩⟩ | ⟨rfl, hfault, rfl, hen⟩
  · rcases mem_paramModes.mp hm with hsrc | hdst
    · exact .inl ⟨m, hsrc, hrefused⟩
    · exact .inr ⟨m, hdst, .inr hrefused⟩
  · exact .inr (sourceModes_ne_nil hm)
  · exact .inl hm
  · exact .inr (.inl ⟨hm, hen⟩)
  · exact ⟨hfault, .inr (.inr ⟨hm, hen⟩)⟩

theorem FaultCause.of_source {k : Nat} (hm : m ∈ sourceModes i) (h : s.sourceFault k m = some e) : FaultCause s i e :=
  .of_param (mem_paramModes.mpr (.inl hm)) (sourceFault_kind h)

theorem FaultCause.of_dest {k : Nat} (hm : destMode i = some m) (h : s.destFault k m = some e) : FaultCause s i e := by
  rcases destFault_kind h with hkind | ⟨rfl, himm⟩
  · exact .of_param (mem_paramModes.mpr (.inr hm)) hkind
  · exact .inr ⟨m, hm, .inl himm⟩

/-- INPUT's destination is an address whatever its mode digit (R87), so its faults are those of an address. -/
theorem FaultCause.of_inputDest (h : s.destFault 1 .position = some e) : FaultCause s .input e := by
  rcases destFault_kind h with (⟨-, ⟨d, hd⟩ | ⟨hd, -⟩⟩ | rfl | ⟨rfl, -⟩ | ⟨-, -, hd, -⟩) | ⟨-, hd⟩
  · cases hd
  · cases hd
  · exact .inl rfl
  · exact .inr (.inr (.inl rfl))
  · cases hd
  · cases hd

end

section
variable {s : State} {i : Instr} {e : ErrKind} {m1 m2 m3 : Mode}

/-- Of the format `RRW` instructions only ADD and MUL can overflow, and only under `FAULT`. -/
theorem resultOf_eq_none {c : Config} {a b : Int}
    (hi : i ∈ [.add m1 m2 m3, .mul m1 m2 m3, .lessThan m1 m2 m3, .equals m1 m2 m3]) (h : resultOf c i a b = none) :
    c.overflow = .fault ∧ (i = .add m1 m2 m3 ∨ i = .mul m1 m2 m3) := by
  simp only [List.mem_cons, List.not_mem_nil, or_false] at hi
  rcases hi with rfl | rfl | rfl | rfl
  · exact ⟨(narrow_eq_none.mp h).2, .inl rfl⟩
  · exact ⟨(narrow_eq_none.mp h).2, .inr rfl⟩
  · cases h
  · cases h

theorem modes_three (hi : i ∈ [.add m1 m2 m3, .mul m1 m2 m3, .lessThan m1 m2 m3, .equals m1 m2 m3]) :
    sourceModes i = [m1, m2] ∧ destMode i = some m3 := by
  simp only [List.mem_cons, List.not_mem_nil, or_false] at hi
  rcases hi with rfl | rfl | rfl | rfl <;> exact ⟨rfl, rfl⟩

theorem sourceModes_jump (hi : i ∈ [.jumpIfTrue m1 m2, .jumpIfFalse m1 m2]) : sourceModes i = [m1, m2] := by
  rcases List.mem_pair.mp hi with rfl | rfl <;> rfl

theorem FaultCause.of_threeFault (hi : i ∈ [.add m1 m2 m3, .mul m1 m2 m3, .lessThan m1 m2 m3, .equals m1 m2 m3])
    (h : s.threeFault (resultOf s.cfg i) m1 m2 m3 = some e) : FaultCause s i e := by
  obtain ⟨hsrc, hdst⟩ := modes_three hi
  rcases threeFault_from h with h1 | h2 | h3 | ⟨rfl, a, b, hnone⟩
  · exact .of_source (by simp [hsrc]) h1
  · exact .of_source (by simp [hsrc]) h2
  · exact .of_dest hdst h3
  · obtain ⟨hfault, hi⟩ := resultOf_eq_none hi hnone
    exact ⟨hfault, .inl ⟨m1, m2, m3, hi⟩⟩

theorem FaultCause.of_twoFault (hi : i ∈ [.jumpIfTrue m1 m2, .jumpIfFalse m1 m2]) (h : s.twoFault m1 m2 = some e) :
    FaultCause s i e := by
  have hsrc := sourceModes_jump hi
  rcases twoFault_from h with h1 | h2
  · exact .of_source (by simp [hsrc]) h1
  · exact .of_source (by simp [hsrc]) h2

/-- A word that is no instruction raises `InvalidOpCode` and nothing else. -/
theorem exec_of_invalidOpCode (h : FaultCause s i .invalidOpCode) : exec i s = .next (s.raise .invalidOpCode) := by
  rcases h with ⟨op, rfl⟩ | ⟨w, rfl⟩ | ⟨⟨m, rfl⟩, hdis⟩
  · exact exec_illegalOpcode op s
  · exact exec_negativeWord w s
  · exact exec_adjustRelBase_of_not_relEn hdis m

end

/-! ## What a fault leaves -/

/-- A fault of kind `e` in the instruction `i` took `s` to `t` and left unchanged what R117 says: all but the length of
the tape, the port that gave a failing answer, and `run` and `err`. -/
structure PreciseFault (s t : State) (i : Instr) (e : ErrKind) : Prop where
  err : t.err = some e
  ip : t.ip = s.ip
  relBase : t.relBase = s.relBase
  cfg : t.cfg = s.cfg
  cells : t.mem.cells = s.mem.cells
  len : s.mem.len ≤ t.mem.len
  inputs : t.inputs = s.inputs ∨ (i = .input ∧ (e = .ioTransportFailure ∨ e = .ioParseFailure))
  outputs : (t.outputs = s.outputs ∧ t.sink = s.sink) ∨ ((∃ m, i = .output m) ∧ e = .ioTransportFailure)

section
variable {s t : State} {i : Instr} {e : ErrKind}

theorem FaultedWith.precise (h : FaultedWith e s t) : PreciseFault s t i e := by
  obtain ⟨n, hn, rfl⟩ := h
  exact ⟨rfl, rfl, rfl, rfl, rfl, hn, .inl rfl, .inl ⟨rfl, rfl⟩⟩

/-- A failing answer of the input port may have used up something of the source. -/
theorem FaultedWith.precise_input {rest : List InAnswer} (h : FaultedWith e { s with inputs := rest } t)
    (he : e = .ioTransportFailure ∨ e = .ioParseFailure) : PreciseFault s t .input e := by
  obtain ⟨n, hn, rfl⟩ := h
  exact ⟨rfl, rfl, rfl, rfl, rfl, hn, .inr ⟨rfl, he⟩, .inl ⟨rfl, rfl⟩⟩

/-- The fetch before the instruction grows the tape at most. -/
theorem PreciseFault.of_growTo {n : Nat} (h : PreciseFault (s.growTo n) t i e) : PreciseFault s t i e where
  err := h.err
  ip := h.ip
  relBase := h.relBase
  cfg := h.cfg
  cells := h.cells.trans (Memory.growTo_cells s.mem n)
  len := le_trans (by simp) h.len
  inputs := h.inputs
  outputs := h.outputs

/-- Every fault of an instruction of a running engine has its cause, and is precise: by what each instruction can do. -/
theorem exec_failed (hr : s.run = .running) (h : exec i s = .next t) (hfailed : t.run = .failed) :
    ∃ e, FaultCause s i e ∧ PreciseFault s t i e := by
  have hkept : s.run ≠ .failed := by simp [hr]
  rcases instr_shapes i with ⟨m1, m2, m3, hi⟩ | ⟨m1, m2, hi⟩ | rfl | ⟨m, rfl⟩ | ⟨m, rfl⟩ | rfl | ⟨op, rfl⟩ | ⟨w, rfl⟩
  · rcases exec_three_cases hi h with ⟨a, b, d, v, -, -, -, -, rfl⟩ | ⟨e, he, hf⟩
    · exact absurd hfailed hkept
    · exact ⟨e, .of_threeFault hi he, hf.precise⟩
  · rcases exec_jump_cases hi h with
      ⟨a, b, h1, h2, ⟨-, -, rfl⟩ | ⟨-, rfl⟩ | ⟨htaken, hb, hf⟩⟩ | ⟨e, he, hf⟩
    · exact absurd hfailed hkept
    · exact absurd hfailed hkept
    · exact ⟨.negativeAddress, .inr (.inr (.inr ⟨m1, m2, a, b, h1, h2, hb, htaken⟩)), hf.precise⟩
    · exact ⟨e, .of_twoFault hi he, hf.precise⟩
  · rcases exec_input_cases h with ⟨e, he, hf⟩ | ⟨d, -, ⟨-, rfl⟩ | ⟨v, rest, -, -, rfl⟩ | ⟨rest, hin, hf⟩ |
      ⟨rest, hin, hf⟩ | ⟨first, rest, hin, hparse, hf⟩⟩
    · exact ⟨e, .of_inputDest he, hf.precise⟩
    · exact absurd hfailed hkept
    · exact absurd hfailed hkept
    · exact ⟨.missingInput, ⟨rfl, rest, hin⟩, hf.precise⟩
    · exact ⟨.ioTransportFailure, .inl ⟨rfl, rest, hin⟩, hf.precise_input (.inl rfl)⟩
    · exact ⟨.ioParseFailure, ⟨rfl, first, rest, hin, hparse⟩, hf.precise_input (.inr rfl)⟩
  · rcases exec_output_cases h with ⟨a, rest, -, -, rfl⟩ | ⟨a, rest, b, -, hsink, rfl⟩ | ⟨e, he, hf⟩
    · exact absurd hfailed hkept
    · exact ⟨.ioTransportFailure, .inr ⟨⟨m, rfl⟩, b, rest, hsink⟩, rfl, rfl, rfl, rfl, Memory.growTo_cells .., by simp,
        .inl rfl, .inr ⟨⟨m, rfl⟩, rfl⟩⟩
    · exact ⟨e, .of_source List.mem_cons_self he, hf.precise⟩
  · rcases exec_adjustRelBase_cases h with
      ⟨a, v, -, -, -, rfl⟩ | ⟨-, a, -, hnone, hf⟩ | ⟨-, e, he, hf⟩ | ⟨hdis, rfl⟩
    · exact absurd hfailed hkept
    · exact ⟨.arithmeticOverflow, ⟨(narrow_eq_none.mp hnone).2, .inr (.inl ⟨m, rfl⟩)⟩, hf.precise⟩
    · exact ⟨e, .of_source List.mem_cons_self he, hf.precise⟩
    · exact ⟨.invalidOpCode, .inr (.inr ⟨⟨m, rfl⟩, hdis⟩), (faultedWith_raise s _).precise⟩
  · cases h
    cases hfailed
  · cases h
    exact ⟨.invalidOpCode, .inl ⟨op, rfl⟩, (faultedWith_raise s _).precise⟩
  · cases h
    exact ⟨.invalidOpCode, .inr (.inl ⟨w, rfl⟩), (faultedWith_raise s _).precise⟩

end

/-- Settles O42: a fault of the instruction is precise after the fetch has grown the tape, and so is a fault of the
fetch. -/
theorem faultsArePrecise : Obligations.FaultsArePrecise := by
  intro s t hr h hfailed
  have hprecise : ∃ e, PreciseFault s t (decode (s.mem.cell s.ip)) e := by
    obtain ⟨-, ⟨-, hx⟩ | ⟨-, rfl⟩⟩ := step_cases h
    · obtain ⟨e, -, hp⟩ := exec_failed (s := s.growTo (s.ip + 1)) hr hx hfailed
      exact ⟨e, hp.of_growTo⟩
    · exact ⟨_, (faultedWith_raise s _).precise⟩
  obtain ⟨e, hp⟩ := hprecise
  simp only [hp.err, Option.some.injEq]
  exact ⟨Option.some_ne_none e, hp.ip, hp.relBase, hp.cfg, hp.cells, hp.len, hp.inputs, hp.outputs⟩

/-- Settles O43: the recorded kind is the one that has its cause; the words that are no instruction raise
`InvalidOpCode` and nothing else. -/
theorem whichInstructionRaisesWhichFault : Obligations.WhichInstructionRaisesWhichFault := by
  intro s t i hr h hfailed
  have hcause (k : ErrKind) (hk : t.err = some k) : FaultCause s i k := by
    obtain ⟨e, he, hp⟩ := exec_failed hr h hfailed
    cases hp.err.symm.trans hk
    exact he
  have hillegal (hi : FaultCause s i .invalidOpCode) : t.err = some .invalidOpCode := by
    rw [exec_of_invalidOpCode hi] at h
    cases h
    rfl
  exact ⟨⟨hcause _, hillegal⟩, hcause _, hcause _, hcause _, hcause _, hcause _, hcause _, hcause _⟩

end Sys2Proof.Machine
end

section
/-! PROOFS. Reset and launch: a reset only after a run has ended, and the tape a launch builds reads as the image
(70_reset_and_hazards.md R132 to R137). -/

namespace Sys2Proof.Machine

/-! ## Reset -/

theorem restart_of_running {s : State} (h : s.run = .running) : s.restart = none := by
  rw [State.restart, h]

theorem restart_of_ended {s : State} (h : s.ended) : s.restart = some s.start := by
  rcases h with h | h <;> rw [State.restart, h]

/-- Settles O53: the registers are those of `State.start`, and `restart` applies it to an ended run only. -/
theorem resetSetsFourRegisters : Obligations.ResetSetsFourRegisters :=
  fun _ => ⟨rfl, restart_of_running, restart_of_ended⟩

/-! ## The image on the tape -/

/-- The cells of an image lie at its own address and above it. -/
theorem lookupCell_imageCells_of_lt (image : List Int) {i a : Nat} (h : a < i) :
    lookupCell (imageCells i image) a = 0 :=
  lookupCell_of_not_listed fun p hp => (h.trans_le (imageCells_ge p hp)).ne'

theorem lookupCell_imageCells (image : List Int) (i k : Nat) :
    lookupCell (imageCells i image) (i + k) = image.getD k 0 := by
  induction image generalizing i k with
  | nil => rfl
  | cons c rest ih =>
    have hfirst : lookupCell (imageCells (i + 1) rest) i = 0 := lookupCell_imageCells_of_lt rest (Nat.lt_succ_self i)
    have hlater (k : Nat) : lookupCell (imageCells (i + 1) rest) (i + (k + 1)) = rest.getD k 0 := by
      rw [← ih (i + 1) k, Nat.add_right_comm, Nat.add_assoc]
    rw [imageCells]
    split
    · next hc =>
      cases k with
      | zero => simpa [hc] using hfirst
      | succ k => simpa using hlater k
    · cases k with
      | zero => simp [lookupCell]
      | succ k => simpa [lookupCell] using hlater k

/-- R137: `mem[i] = ci`, all other cells 0. -/
theorem Memory.cell_ofImage (image : List Int) (a : Nat) : (Memory.ofImage image).cell a = image.getD a 0 := by
  simpa [Memory.cell, Memory.ofImage] using lookupCell_imageCells image 0 a

/-- Settles O55: a legal launch starts on the tape of its image, any other is refused. -/
theorem launchLoadsTheImage : Obligations.LaunchLoadsTheImage := by
  refine fun l => ⟨fun hok => ?_, fun hbad => if_neg hbad⟩
  exact ⟨_, if_pos hok, Memory.cell_ofImage l.image, rfl, rfl, rfl, rfl, rfl, rfl, rfl, rfl, rfl⟩

end Sys2Proof.Machine
end
